-- ==== Sys2Proof/Word.lean ====
section
/-! DEFINITION. The machine's words: bytes, half words, words (spec 00_scope R7, R9; 10_state R20). -/

namespace Sys2Proof

/-- A byte, 8 bits (R9). -/
abbrev Byte := BitVec 8

/-- A half word, 16 bits (R9). -/
abbrev Half := BitVec 16

/-- A word, 32 bits: the width of a GPR, of the pc and of an effective address (R20, R23, D1). -/
abbrev Word := BitVec 32

/-- The number of an aligned 4096-byte page: the upper 20 bits of an effective address (R50). -/
abbrev Page := BitVec 20

end Sys2Proof
end

