-- ==== Sys2Proof/Config.lean ====
section
/-! DEFINITION. What is fixed for this machine (spec 00_scope R5), the values the model names for the launch
state (the spec gives none, 10_state R33), and the free values. -/

namespace Sys2Proof.Config

/-- `LE_MODE` (R5, R43, D3): the processor is in big-endian mode; little-endian mode is no configuration. -/
def leMode : Bool := false

/-- `PAGE_SIZE` (R5, R50): 4096 bytes. -/
def pageSize : Nat := 4096

/-- What a byte of memory that the memory list does not name reads as. The spec fixes no launch contents
(R33, U10). DESIGN CHOICE, unsafe: notes/assumptions/2.md. -/
def unlistedByte : Byte := 0#8

/-- The pc right after reset. The spec fixes none (R33). DESIGN CHOICE, unsafe: notes/assumptions/1.md. -/
def resetPc : Word := 0x00000100#32

/-- Every GPR right after reset. The spec fixes none (R22, R33). DESIGN CHOICE, unsafe: notes/assumptions/1.md. -/
def resetGpr : Word := 0#32

/-- The CR right after reset. The spec fixes none (R25). DESIGN CHOICE, unsafe: notes/assumptions/1.md. -/
def resetCr : Word := 0#32

/-- The XER right after reset. The spec fixes none (R26). DESIGN CHOICE, unsafe: notes/assumptions/1.md. -/
def resetXer : Word := 0#32

/-- FREE VALUE. The `k`-th free 32-bit draw: the undefined rD of `lswx` with a byte count of zero (R157 (c), U6), and the
word in the record of a stale fetch (R32, R56). Nothing is known of it. notes/assumptions/9.md, 18.md. -/
opaque freeWord (k : Nat) : Word

/-- FREE VALUE. For the `k`-th draw, whether pass `j` of a load string that took a DSI cleared its register first, of
those registers into which a byte was transferred (R153, R160). Nothing is known of it. notes/assumptions/19.md. -/
opaque freeClear (k j : Nat) : Bool

/-- FREE VALUE. For the `k`-th draw, whether transfer number `j` of a multiple or string that took a DSI was
performed (R144, R160, U5, D9). Nothing is known of it. notes/assumptions/10.md. -/
opaque freeChoice (k j : Nat) : Bool

end Sys2Proof.Config
end

