-- ==== Sys2Proof/Syntax.lean ====
section
/-! DEFINITION. The 38 instructions (spec 00_scope R3; opcode_table.json), their operands as named fields
(30_encoding R61 to R66, R74), and the reasons an encoding is an invalid form (30_encoding R70). -/

namespace Sys2Proof

/-- A 5-bit register field: value `i` selects GPR `i` (R63, R66). -/
abbrev Reg := BitVec 5

/-- The 16-bit immediate field `D`, the manual's signed `d` (R64). -/
abbrev Imm := BitVec 16

/-- The 5-bit byte-count field `NB` of lswi and stswi (R65). -/
abbrev Count := BitVec 5

/-- One constructor per row of spec/opcode_table.json, in the table's order. The arguments are the operands in the
order of the assembler syntax but for the D-forms, written rD/rS, rA, d (R74). -/
inductive Instr where
  /-- Load Byte and Zero (R92). -/
  | lbz (rt ra : Reg) (d : Imm)
  /-- Load Byte and Zero Indexed (R93). -/
  | lbzx (rt ra rb : Reg)
  /-- Load Byte and Zero with Update (R94). -/
  | lbzu (rt ra : Reg) (d : Imm)
  /-- Load Byte and Zero with Update Indexed (R95). -/
  | lbzux (rt ra rb : Reg)
  /-- Load Half Word and Zero (R96). -/
  | lhz (rt ra : Reg) (d : Imm)
  /-- Load Half Word and Zero Indexed (R97). -/
  | lhzx (rt ra rb : Reg)
  /-- Load Half Word and Zero with Update (R98). -/
  | lhzu (rt ra : Reg) (d : Imm)
  /-- Load Half Word and Zero with Update Indexed (R99). -/
  | lhzux (rt ra rb : Reg)
  /-- Load Half Word Algebraic (R100). -/
  | lha (rt ra : Reg) (d : Imm)
  /-- Load Half Word Algebraic Indexed (R101). -/
  | lhax (rt ra rb : Reg)
  /-- Load Half Word Algebraic with Update (R102). -/
  | lhau (rt ra : Reg) (d : Imm)
  /-- Load Half Word Algebraic with Update Indexed (R103). -/
  | lhaux (rt ra rb : Reg)
  /-- Load Word and Zero (R104). -/
  | lwz (rt ra : Reg) (d : Imm)
  /-- Load Word and Zero Indexed (R105). -/
  | lwzx (rt ra rb : Reg)
  /-- Load Word and Zero with Update (R106). -/
  | lwzu (rt ra : Reg) (d : Imm)
  /-- Load Word and Zero with Update Indexed (R107). -/
  | lwzux (rt ra rb : Reg)
  /-- Store Byte (R113). -/
  | stb (rs ra : Reg) (d : Imm)
  /-- Store Byte Indexed (R114). -/
  | stbx (rs ra rb : Reg)
  /-- Store Byte with Update (R115). -/
  | stbu (rs ra : Reg) (d : Imm)
  /-- Store Byte with Update Indexed (R116). -/
  | stbux (rs ra rb : Reg)
  /-- Store Half Word (R117). -/
  | sth (rs ra : Reg) (d : Imm)
  /-- Store Half Word Indexed (R118). -/
  | sthx (rs ra rb : Reg)
  /-- Store Half Word with Update (R119). -/
  | sthu (rs ra : Reg) (d : Imm)
  /-- Store Half Word with Update Indexed (R120). -/
  | sthux (rs ra rb : Reg)
  /-- Store Word (R121). -/
  | stw (rs ra : Reg) (d : Imm)
  /-- Store Word Indexed (R122). -/
  | stwx (rs ra rb : Reg)
  /-- Store Word with Update (R123). -/
  | stwu (rs ra : Reg) (d : Imm)
  /-- Store Word with Update Indexed (R124). -/
  | stwux (rs ra rb : Reg)
  /-- Load Half Word Byte-Reverse Indexed (R131). -/
  | lhbrx (rt ra rb : Reg)
  /-- Load Word Byte-Reverse Indexed (R132). -/
  | lwbrx (rt ra rb : Reg)
  /-- Store Half Word Byte-Reverse Indexed (R133). -/
  | sthbrx (rs ra rb : Reg)
  /-- Store Word Byte-Reverse Indexed (R134). -/
  | stwbrx (rs ra rb : Reg)
  /-- Load Multiple Word (R141). -/
  | lmw (rt ra : Reg) (d : Imm)
  /-- Store Multiple Word (R142). -/
  | stmw (rs ra : Reg) (d : Imm)
  /-- Load String Word Immediate (R153). -/
  | lswi (rt ra : Reg) (nb : Count)
  /-- Load String Word Indexed (R154). -/
  | lswx (rt ra rb : Reg)
  /-- Store String Word Immediate (R155). -/
  | stswi (rs ra : Reg) (nb : Count)
  /-- Store String Word Indexed (R156). -/
  | stswx (rs ra rb : Reg)
deriving DecidableEq, Repr

/-- Why an encoding of a defined instruction is an invalid form: the seven rows of R70. -/
inductive InvalidReason where
  /-- Row 1: load with update, rA = 0 or rA = rD. -/
  | loadUpdate
  /-- Row 2: store with update, rA = 0. -/
  | storeUpdate
  /-- Row 3: X-form store with bit 31 set (Rc = 1). -/
  | storeRc
  /-- Row 4: lmw, rA in the range of registers to be loaded. -/
  | lmwRange
  /-- Row 5: X-form load with bit 31 set. -/
  | loadRc
  /-- Row 6: lswi, rA in the range of registers to be loaded. -/
  | lswiRange
  /-- Row 7: lswx, rD = rA or rD = rB. -/
  | lswxTarget
deriving DecidableEq, Repr

/-- Why a word does not decode (R71). -/
inductive Undecoded where
  /-- The word is none of the 38 instructions (R72). -/
  | notInScope
  /-- The word is an invalid form of one of them (R69, R70). -/
  | invalidForm (reason : InvalidReason)
deriving DecidableEq, Repr

end Sys2Proof
end

