-- ==== Sys2Proof/Decode.lean ====
section
/-! DEFINITION. The decoder, the encoder and the invalid forms (spec 30_encoding R60 to R72). The decoder is total on
any word and rejects by name. -/

namespace Sys2Proof

/-! ## Fields of an instruction word (R61 to R63) -/

/-- Primary opcode, manual bits 0 to 5 (R61, R62). -/
def fieldOpcd (w : Word) : Nat := (w.extractLsb' 26 6).toNat

/-- rD of a load, rS of a store: manual bits 6 to 10 (R63). -/
def fieldRT (w : Word) : Reg := w.extractLsb' 21 5

/-- rA, manual bits 11 to 15 (R63). -/
def fieldRA (w : Word) : Reg := w.extractLsb' 16 5

/-- rB, or NB of lswi and stswi: manual bits 16 to 20 (R63, R65). -/
def fieldRB (w : Word) : Reg := w.extractLsb' 11 5

/-- The immediate `d`, manual bits 16 to 31 (R61, R64). -/
def fieldD (w : Word) : Imm := w.extractLsb' 0 16

/-- Extended opcode, manual bits 21 to 30 (R62). -/
def fieldXo (w : Word) : Nat := (w.extractLsb' 1 10).toNat

/-- The Rc field, manual bit 31 (R62, R69). -/
def fieldRc (w : Word) : Bool := w.extractLsb' 0 1 == 1#1

/-! ## The opcode maps -/

/-- Primary opcodes of the D-forms (R67). -/
def dForms : List (Nat × (Reg → Reg → Imm → Instr)) :=
  [(32, .lwz), (33, .lwzu), (34, .lbz), (35, .lbzu), (36, .stw), (37, .stwu), (38, .stb), (39, .stbu),
   (40, .lhz), (41, .lhzu), (42, .lha), (43, .lhau), (44, .sth), (45, .sthu), (46, .lmw), (47, .stmw)]

/-- Extended opcodes of the X-forms, under primary opcode 31 (R68). -/
def xForms : List (Nat × (Reg → Reg → Reg → Instr)) :=
  [(23, .lwzx), (55, .lwzux), (87, .lbzx), (119, .lbzux), (151, .stwx), (183, .stwux), (215, .stbx), (247, .stbux),
   (279, .lhzx), (311, .lhzux), (343, .lhax), (375, .lhaux), (407, .sthx), (439, .sthux), (533, .lswx), (534, .lwbrx),
   (597, .lswi), (661, .stswx), (662, .stwbrx), (725, .stswi), (790, .lhbrx), (918, .sthbrx)]

/-- Whether the instruction stores to memory (R21: the instructions that read rS). -/
def isStore : Instr → Bool
  | .stb .. | .stbx .. | .stbu .. | .stbux .. | .sth .. | .sthx .. | .sthu .. | .sthux .. | .stw .. | .stwx ..
  | .stwu .. | .stwux .. | .sthbrx .. | .stwbrx .. | .stmw .. | .stswi .. | .stswx .. => true
  | .lbz .. | .lbzx .. | .lbzu .. | .lbzux .. | .lhz .. | .lhzx .. | .lhzu .. | .lhzux .. | .lha .. | .lhax ..
  | .lhau .. | .lhaux .. | .lwz .. | .lwzx .. | .lwzu .. | .lwzux .. | .lhbrx .. | .lwbrx .. | .lmw .. | .lswi ..
  | .lswx .. => false

/-! ## Decoding -/

/-- The first half of R71: the mnemonic and the operands of a word, by the opcode maps R67 and R68. An X-form with
bit 31 set is an invalid form (R69, D21); a word in neither map is not in scope (R72). -/
def decode (w : Word) : Except Undecoded Instr :=
  if fieldOpcd w = 31 then
    match xForms.lookup (fieldXo w) with
    | none => .error .notInScope
    | some mk =>
      let i := mk (fieldRT w) (fieldRA w) (fieldRB w)
      if fieldRc w then .error (.invalidForm (if isStore i then .storeRc else .loadRc)) else .ok i
  else
    match dForms.lookup (fieldOpcd w) with
    | none => .error .notInScope
    | some mk => .ok (mk (fieldRT w) (fieldRA w) (fieldD w))

/-! ## Invalid forms that the operand fields make (R70) -/

/-- The number of bytes lswi and stswi transfer: `NB`, or 32 if `NB = 0` (R65, R151). -/
def immediateCount (nb : Count) : Nat := if nb = 0#5 then 32 else nb.toNat

/-- Whether GPR `r` is in the run of `ceil(n / 4)` registers that starts at `first` and wraps from GPR31 to GPR0
(R152). -/
def inRun (first : Reg) (n : Nat) (r : Reg) : Bool := (r - first).toNat < (n + 3) / 4

/-- Rows 1, 2, 4, 6 and 7 of R70: the invalid forms that the operand fields make. (Rows 3 and 5 are bit 31, which
`decode` reads.) Register 0 counts as a register here: "including the case in which rA = 0" (R143, R157 (a)). -/
def invalidForm? : Instr → Option InvalidReason
  | .lbzu rt ra _ | .lhzu rt ra _ | .lhau rt ra _ | .lwzu rt ra _ =>
    if ra = 0#5 || ra = rt then some .loadUpdate else none
  | .lbzux rt ra _ | .lhzux rt ra _ | .lhaux rt ra _ | .lwzux rt ra _ =>
    if ra = 0#5 || ra = rt then some .loadUpdate else none
  | .stbu _ ra _ | .sthu _ ra _ | .stwu _ ra _ => if ra = 0#5 then some .storeUpdate else none
  | .stbux _ ra _ | .sthux _ ra _ | .stwux _ ra _ => if ra = 0#5 then some .storeUpdate else none
  | .lmw rt ra _ => if rt.toNat ≤ ra.toNat then some .lmwRange else none
  | .lswi rt ra nb => if inRun rt (immediateCount nb) ra then some .lswiRange else none
  | .lswx rt ra rb => if rt = ra || rt = rb then some .lswxTarget else none
  | .lbz .. | .lbzx .. | .lhz .. | .lhzx .. | .lha .. | .lhax .. | .lwz .. | .lwzx .. | .stb .. | .stbx .. | .sth ..
  | .sthx .. | .stw .. | .stwx .. | .lhbrx .. | .lwbrx .. | .sthbrx .. | .stwbrx .. | .stmw .. | .stswi ..
  | .stswx .. => none

/-- The whole decoding procedure of R71. The machine's step runs `decode` and then the instruction's meaning, which
itself raises the invalid forms of `invalidForm?`; no state is read in between, so the two agree. -/
def decodeChecked (w : Word) : Except Undecoded Instr :=
  match decode w with
  | .error e => .error e
  | .ok i =>
    match invalidForm? i with
    | some reason => .error (.invalidForm reason)
    | none => .ok i

/-! ## Encoding -/

/-- A D-form word: OPCD, RT or RS, RA, D (R61). -/
def encodeD (opcd : Nat) (rt ra : Reg) (d : Imm) : Word := BitVec.ofNat 6 opcd ++ rt ++ ra ++ d

/-- An X-form word: OPCD = 31, RT or RS, RA, RB or NB, XO, and bit 31 zero (R62). -/
def encodeX (xo : Nat) (rt ra rb : Reg) : Word := 31#6 ++ rt ++ ra ++ rb ++ BitVec.ofNat 10 xo ++ 0#1

/-- The word of an instruction (R67, R68). -/
def encode : Instr → Word
  | .lbz rt ra d => encodeD 34 rt ra d
  | .lbzx rt ra rb => encodeX 87 rt ra rb
  | .lbzu rt ra d => encodeD 35 rt ra d
  | .lbzux rt ra rb => encodeX 119 rt ra rb
  | .lhz rt ra d => encodeD 40 rt ra d
  | .lhzx rt ra rb => encodeX 279 rt ra rb
  | .lhzu rt ra d => encodeD 41 rt ra d
  | .lhzux rt ra rb => encodeX 311 rt ra rb
  | .lha rt ra d => encodeD 42 rt ra d
  | .lhax rt ra rb => encodeX 343 rt ra rb
  | .lhau rt ra d => encodeD 43 rt ra d
  | .lhaux rt ra rb => encodeX 375 rt ra rb
  | .lwz rt ra d => encodeD 32 rt ra d
  | .lwzx rt ra rb => encodeX 23 rt ra rb
  | .lwzu rt ra d => encodeD 33 rt ra d
  | .lwzux rt ra rb => encodeX 55 rt ra rb
  | .stb rs ra d => encodeD 38 rs ra d
  | .stbx rs ra rb => encodeX 215 rs ra rb
  | .stbu rs ra d => encodeD 39 rs ra d
  | .stbux rs ra rb => encodeX 247 rs ra rb
  | .sth rs ra d => encodeD 44 rs ra d
  | .sthx rs ra rb => encodeX 407 rs ra rb
  | .sthu rs ra d => encodeD 45 rs ra d
  | .sthux rs ra rb => encodeX 439 rs ra rb
  | .stw rs ra d => encodeD 36 rs ra d
  | .stwx rs ra rb => encodeX 151 rs ra rb
  | .stwu rs ra d => encodeD 37 rs ra d
  | .stwux rs ra rb => encodeX 183 rs ra rb
  | .lhbrx rt ra rb => encodeX 790 rt ra rb
  | .lwbrx rt ra rb => encodeX 534 rt ra rb
  | .sthbrx rs ra rb => encodeX 918 rs ra rb
  | .stwbrx rs ra rb => encodeX 662 rs ra rb
  | .lmw rt ra d => encodeD 46 rt ra d
  | .stmw rs ra d => encodeD 47 rs ra d
  | .lswi rt ra nb => encodeX 597 rt ra nb
  | .lswx rt ra rb => encodeX 533 rt ra rb
  | .stswi rs ra nb => encodeX 725 rs ra nb
  | .stswx rs ra rb => encodeX 661 rs ra rb

/-! ## Bytes -/

/-- The four bytes of a word as they lie in memory, the most significant at the lowest address (R41, R60). -/
def wordBytes (w : Word) : List Byte :=
  [w.extractLsb' 24 8, w.extractLsb' 16 8, w.extractLsb' 8 8, w.extractLsb' 0 8]

/-- The decoder on bytes laid out as in memory: the first four make the word, most significant first (R42, R60).
Fewer than four bytes are no word and so none of the 38 instructions. -/
def decodeBytes : List Byte → Except Undecoded Instr
  | b0 :: b1 :: b2 :: b3 :: _ => decode (b0 ++ b1 ++ b2 ++ b3)
  | _ => .error .notInScope

/-- The instruction the decoder reads from the table's word `w` of `nbits` bits. -/
def decodeTableWord (nbits w : Nat) : Option Instr :=
  match decodeBytes (wordBytes (BitVec.ofNat 32 (w % 2 ^ nbits))) with
  | .ok i => some i
  | .error _ => none

end Sys2Proof
end

