-- ==== Sys2Proof/WellFormed.lean ====
section
/-! DEFINITION. Which instructions are well formed (spec 30_encoding R70): every operand field already has its exact
width in the type, so what is left is that the form is none of the invalid forms. -/

namespace Sys2Proof

/-- The instruction is a valid form: no row of R70 applies to its operand fields. -/
def Instr.wf (i : Instr) : Bool := (invalidForm? i).isNone

end Sys2Proof
end

