-- ==== Sys2Proof/Machine/State.lean ====
section
/-! DEFINITION. The machine's state as plain data (spec 10_state, 70_reset R201), the reasons a step stops, and the
state right after reset. -/

namespace Sys2Proof.Machine

/-- The kind of a data access (R47, R50). -/
inductive AccessKind where
  | load
  | store
deriving DecidableEq, Repr

/-- Why `Refused` is recorded: the one reason R176 knows. -/
inductive RefusedReason where
  /-- lswx with rA or rB in the range of registers actually loaded (R157 (b), U7). -/
  | lswxRange
deriving DecidableEq, Repr

/-- The kinds of a fault record with what each records (R176). The first two are exceptions of the chip; the others
mark places where the spec gives no meaning. -/
inductive FaultKind where
  /-- DSI (R171): `addr` is the first byte of the operand that `Admit` rejects. -/
  | dsi (addr : Word) (kind : AccessKind)
  /-- Alignment (R172): `addr` is the address of the access. -/
  | alignment (addr : Word) (kind : AccessKind)
  /-- An invalid form (R70, R173). -/
  | invalidForm (reason : InvalidReason)
  /-- A word that is none of the 38 instructions (R72). -/
  | notInScope
  /-- A fetch of a word with a byte in `Dirty` (R56). -/
  | staleFetch (pc : Word)
  /-- lswx with its base or index in the loaded range (R157 (b)). -/
  | refused (reason : RefusedReason)
deriving DecidableEq, Repr

/-- The fault record (R32): its kind, the pc of the instruction and the instruction word. The word of a stale fetch is a
free value: "the chip would execute either the old or the new word, the model claims neither" (R56;
notes/assumptions/18.md). -/
structure FaultRecord where
  kind : FaultKind
  pc : Word
  word : Word
deriving DecidableEq, Repr

/-- A segment of the program text: `words` instruction words from `base` on (R5, R56; notes/assumptions/17.md). -/
structure TextSegment where
  base : Word
  words : Nat
deriving DecidableEq, Repr

/-- One rule of the open part of `AlignTrap` (R46): it asks for an Alignment exception on the instruction words `w`
with `w &&& insnMask = insnBits` at the addresses `a` with `a &&& addrMask = addrBits`. With full masks a rule names
one word at one address, so lists of rules express every function of both (notes/assumptions/7.md). -/
structure AlignRule where
  insnMask : Word
  insnBits : Word
  addrMask : Word
  addrBits : Word
deriving DecidableEq, Repr

/-- Memory: (address, byte) pairs, addresses strictly rising and below 2^32, no byte equal to what an unlisted address
reads as (R30, R40; `Memory.wf` in Machine/Ops.lean). -/
abbrev Memory := List Host.Cell

/-- The state of the machine (R20 to R32) with the parameters of its launch (R201). -/
structure State where
  /-- x[0] .. x[31] (R20). -/
  gpr : Vector Word 32
  /-- The address of the current instruction (R23). -/
  pc : Word
  /-- The condition register (R25). No instruction reads or writes it. -/
  cr : Word
  /-- The XER (R26). lswx and stswx read its byte count; no instruction writes it. -/
  xer : Word
  /-- Memory (R30, R40). -/
  mem : Memory
  /-- The set `Dirty` (R31): addresses of program-text bytes that a store has written, strictly rising. -/
  dirty : List Nat
  /-- The fault record (R32), empty at launch, set once, never cleared. -/
  faultRecord : Option FaultRecord
  /-- Launch parameter: the set `CodeRegion` (R5, R24, R56). -/
  codeRegion : List TextSegment
  /-- Launch parameter: the pages for which `Admit` of a load is false (R50). -/
  noLoad : List Page
  /-- Launch parameter: the pages for which `Admit` of a store is false (R50). -/
  noStore : List Page
  /-- Launch parameter: the open part of `AlignTrap` (R46). -/
  alignRules : List AlignRule
  /-- Launch parameter: `AlignBeforeDSI` (R5, R47). -/
  alignBeforeDSI : Bool
  /-- The MODEL's own: how many free values have been drawn (notes/assumptions/9.md, 10.md, 18.md). -/
  freeCount : Nat
deriving DecidableEq, Repr

/-- Why a step answers a fault. -/
inductive Fault where
  /-- Raised by `step` alone, on a state that holds a fault record: "A state with a fault record takes no further
  step" (R170). Safe: on a chip a handler may resume the program, the model proves nothing of that. -/
  | recorded (r : FaultRecord)
deriving DecidableEq, Repr

/-- Why a step answers a refusal. -/
inductive Refusal where
  /-- Raised by an arm of `exec` without a meaning. No arm is left so. Safe. -/
  | notModelled (mnemonic : String)
  /-- Raised by `step` alone: the pc is the address just past the last instruction of the program text; the run is over
  with no fault, and "The model says nothing of what a chip would fetch there" (R24). Safe. -/
  | programEnded
  /-- Raised by `step` alone: the pc is not the address of an instruction of `CodeRegion` and not the end of the
  program text either; the run is over (R24). Safe. -/
  | outsideProgramText
deriving DecidableEq, Repr

/-- What a meaning and a step answer. -/
abbrev Result := Host.Outcome State Fault Refusal

/-- The machine right after reset (R33, R200, R201). `Dirty` and the fault record are empty by R33; every other value is
the model's (notes/assumptions/1.md, 2.md, 3.md). -/
def State.reset : State where
  gpr := Vector.replicate 32 Config.resetGpr
  pc := Config.resetPc
  cr := Config.resetCr
  xer := Config.resetXer
  mem := []
  dirty := []
  faultRecord := none
  codeRegion := []
  noLoad := []
  noStore := []
  alignRules := []
  alignBeforeDSI := true
  freeCount := 0

end Sys2Proof.Machine
end

