-- ==== Sys2Proof/Machine/Flags.lean ====
section
/-! DEFINITION. The fields of the XER and the CR (spec 10_state R25, R26). No instruction of this hardware computes a
flag: none writes the CR or the XER; lswx and stswx read the byte count. -/

namespace Sys2Proof.Machine

/-- `XER_BC = XER{25:31}`, the byte count of lswx and stswx, 0 to 127 (R26, R151). -/
def State.xerByteCount (s : State) : Nat := (s.xer.extractLsb' 0 7).toNat

/-- XER bit 0 (MSB-0): summary overflow (R26). -/
def State.xerSO (s : State) : Bool := s.xer.getLsbD 31

/-- XER bit 1 (MSB-0): overflow (R26). -/
def State.xerOV (s : State) : Bool := s.xer.getLsbD 30

/-- XER bit 2 (MSB-0): carry (R26). -/
def State.xerCA (s : State) : Bool := s.xer.getLsbD 29

/-- The 4-bit field CR`k`, `k` from 0 to 7, CR0 the most significant (R25). -/
def State.crField (s : State) (k : Nat) : BitVec 4 := s.cr.extractLsb' (28 - 4 * k) 4

end Sys2Proof.Machine
end

