-- ==== Sys2Proof/Machine/Operands.lean ====
section
/-! DEFINITION. Registers, the operand forms (spec 40_address_generation R80 to R85), the extensions and the byte
reversals of the loaded and stored values, and the run of registers of a string instruction (45 R151, R152). -/

namespace Sys2Proof.Machine

/-! ## Registers -/

/-- `x[r]` (R7, R21). No GPR is hard-wired. -/
def State.x (s : State) (r : Reg) : Word := s.gpr[r.toNat]'r.isLt

/-- `x[r] <- v` (R7). -/
def State.setX (s : State) (r : Reg) (v : Word) : State := { s with gpr := s.gpr.set r.toNat v r.isLt }

/-- `pc <- pc + 4`, modulo 2^32: what every completed instruction does (R24). -/
def State.advance (s : State) : State := { s with pc := s.pc + 4#32 }

/-! ## Effective addresses -/

/-- Sign extension of the immediate to 32 bits (R64). -/
def sextImm (d : Imm) : Word := d.signExtend 32

/-- `base(RA)`, the manual's `(rA|0)`: the field value 0 selects the constant zero (R80). -/
def State.base (s : State) (ra : Reg) : Word := if ra = 0#5 then 0#32 else s.x ra

/-- Register indirect with immediate index (R81). -/
def State.eaImm (s : State) (ra : Reg) (d : Imm) : Word := s.base ra + sextImm d

/-- Register indirect with index (R82): rB is always read, GPR0 included. -/
def State.eaIdx (s : State) (ra rb : Reg) : Word := s.base ra + s.x rb

/-- The EA of an update form with immediate index: `(rA) + d` (R85, R91, R111). -/
def State.eaImmU (s : State) (ra : Reg) (d : Imm) : Word := s.x ra + sextImm d

/-- The EA of an update form with index: `(rA) + (rB)` (R85, R91, R111). -/
def State.eaIdxU (s : State) (ra rb : Reg) : Word := s.x ra + s.x rb

/-- Address `k` bytes on, modulo 2^32 (R40, R84). -/
def addrPlus (a : Word) (k : Nat) : Word := a + BitVec.ofNat 32 k

/-! ## Loaded and stored values -/

/-- Zero extension of a byte (R90). -/
def zextByte (b : Byte) : Word := b.setWidth 32

/-- Zero extension of a half word (R90). -/
def zextHalf (h : Half) : Word := h.setWidth 32

/-- Sign extension of a half word: the algebraic loads (R90, R100). -/
def sextHalf (h : Half) : Word := h.signExtend 32

/-- The low-order half word of a register (R110). -/
def lowHalf (w : Word) : Half := w.extractLsb' 0 16

/-- The low-order byte of a register (R110). -/
def lowByte (w : Word) : Byte := w.extractLsb' 0 8

/-- The two bytes of a half word as they lie in memory, the most significant first (R41). -/
def halfBytes (h : Half) : List Byte := [h.extractLsb' 8 8, h.extractLsb' 0 8]

/-- The two bytes of a half word in the opposite order (R130, R131, R133). -/
def reverseHalf (h : Half) : Half := h.extractLsb' 0 8 ++ h.extractLsb' 8 8

/-- The four bytes of a word in the opposite order (R130, R132, R134). -/
def reverseWord (w : Word) : Word := w.extractLsb' 0 8 ++ w.extractLsb' 8 8 ++ w.extractLsb' 16 8 ++ w.extractLsb' 24 8

/-! ## Strings and multiples -/

/-- Register `RT + k`, modulo 32: the `k`-th register of a run, which wraps from GPR31 to GPR0 (R140, R152). -/
def runReg (first : Reg) (k : Nat) : Reg := first + BitVec.ofNat 5 k

/-- The number of registers a multiple moves, `n = 32 - rD` (R140). -/
def multipleCount (first : Reg) : Nat := 32 - first.toNat

/-- Byte `k` of a register, counted from the most significant: byte 0 is bits 31 to 24 (R152). -/
def regByte (w : Word) (k : Nat) : Byte := w.extractLsb' (24 - 8 * k) 8

/-- A register with its byte `k`, counted from the most significant, replaced (R152, R153). -/
def withRegByte (w : Word) (k : Nat) (b : Byte) : Word :=
  (w &&& ~~~(255#32 <<< (24 - 8 * k))) ||| (b.setWidth 32 <<< (24 - 8 * k))

end Sys2Proof.Machine
end

