-- ==== Sys2Proof/Machine/Ops.lean ====
section
/-! DEFINITION. The named operations over memory (spec 20_memory R40 to R58), taking an exception (60_exceptions R170,
R176), and the shared shapes of loads, stores, multiples and strings (files 41 to 45). -/

namespace Sys2Proof.Machine

/-! ## Memory as a list in one canonical form -/

/-- The byte at an address (R40). -/
def Memory.read : Memory → Nat → Byte
  | [], _ => Config.unlistedByte
  | (k, v) :: m, a => if k = a then v else Memory.read m a

/-- The memory without an entry for address `a`. -/
def Memory.erase (m : Memory) (a : Nat) : Memory := m.filter (fun c => c.1 != a)

/-- The memory with an entry put in before the first greater address. -/
def Memory.insert : Memory → Nat → Byte → Memory
  | [], a, b => [(a, b)]
  | (k, v) :: m, a, b => if a < k then (a, b) :: (k, v) :: m else (k, v) :: Memory.insert m a b

/-- Writing one byte. Writing what an unlisted address reads as removes the entry, so equal memories are equal data. -/
def Memory.write (m : Memory) (a : Nat) (b : Byte) : Memory :=
  if b = Config.unlistedByte then Memory.erase m a else Memory.insert (Memory.erase m a) a b

/-- The canonical form: addresses strictly rising and inside the address space, no entry equal to an unlisted byte. -/
def Memory.wf : Memory → Bool
  | [] => true
  | (k, v) :: m => k < 2 ^ 32 && v != Config.unlistedByte && m.all (fun c => k < c.1) && Memory.wf m

/-- A set of addresses as a strictly rising list, with `a` added. -/
def addAddr : List Nat → Nat → List Nat
  | [], a => [a]
  | k :: l, a => if a < k then a :: k :: l else if a = k then k :: l else k :: addAddr l a

/-- `Mem[a]` (R40). -/
def State.byteAt (s : State) (a : Word) : Byte := s.mem.read a.toNat

/-- The half word at `a`, big-endian (R41). -/
def State.halfAt (s : State) (a : Word) : Half := s.byteAt a ++ s.byteAt (addrPlus a 1)

/-- The word at `a`, big-endian (R41). -/
def State.wordAt (s : State) (a : Word) : Word :=
  s.byteAt a ++ s.byteAt (addrPlus a 1) ++ s.byteAt (addrPlus a 2) ++ s.byteAt (addrPlus a 3)

/-! ## The program text -/

/-- Whether a byte address lies in a segment (R5). -/
def TextSegment.has (g : TextSegment) (a : Word) : Bool := (a - g.base).toNat < 4 * g.words

/-- Whether an address is the address of an instruction of a segment (R24). -/
def TextSegment.hasInsn (g : TextSegment) (a : Word) : Bool := g.has a && (a - g.base).toNat % 4 == 0

/-- `a in CodeRegion` (R41, R56). -/
def State.inCode (s : State) (a : Word) : Bool := s.codeRegion.any (fun g => g.has a)

/-- Whether `a` is the address of an instruction of `CodeRegion` (R24). -/
def State.isInsnAddr (s : State) (a : Word) : Bool := s.codeRegion.any (fun g => g.hasInsn a)

/-- The address just past the last instruction of the program text (R24). -/
def State.textEnd (s : State) : Option Word :=
  s.codeRegion.getLast?.map (fun g => addrPlus g.base (4 * g.words))

/-! ## Stores -/

/-- `Mem[a] <- b`, and `a` into `Dirty` if it is a byte of the program text (R41, R56). -/
def State.storeByte (s : State) (a : Word) (b : Byte) : State :=
  { s with
    mem := s.mem.write a.toNat b
    dirty := if s.inCode a then addAddr s.dirty a.toNat else s.dirty }

/-- The bytes of a list stored at `a`, `a+1`, ... modulo 2^32 (R41). -/
def State.storeBytes (s : State) (a : Word) : List Byte → State
  | [] => s
  | b :: bs => (s.storeByte a b).storeBytes (addrPlus a 1) bs

/-! ## Admission and alignment -/

/-- `Admit(a, kind)` (R50): constant on each aligned 4096-byte page. -/
def State.admits (s : State) (kind : AccessKind) (a : Word) : Bool :=
  match kind with
  | .load => !s.noLoad.contains (a.extractLsb' 12 20)
  | .store => !s.noStore.contains (a.extractLsb' 12 20)

/-- Whether an instruction is one of the two multiples, which R46 constraint 2 singles out. -/
def isMultiple : Instr → Bool
  | .lmw .. | .stmw .. => true
  | .lbz .. | .lbzx .. | .lbzu .. | .lbzux .. | .lhz .. | .lhzx .. | .lhzu .. | .lhzux .. | .lha .. | .lhax ..
  | .lhau .. | .lhaux .. | .lwz .. | .lwzx .. | .lwzu .. | .lwzux .. | .stb .. | .stbx .. | .stbu .. | .stbux ..
  | .sth .. | .sthx .. | .sthu .. | .sthux .. | .stw .. | .stwx .. | .stwu .. | .stwux .. | .lhbrx .. | .lwbrx ..
  | .sthbrx .. | .stwbrx .. | .lswi .. | .lswx .. | .stswi .. | .stswx .. => false

/-- Whether a rule of the launch state's open `AlignTrap` names this word at this address. -/
def AlignRule.covers (r : AlignRule) (w a : Word) : Bool :=
  w &&& r.insnMask == r.insnBits && a &&& r.addrMask == r.addrBits

/-- `AlignTrap(insn, addr, n)` under the three constraints of R46: false on a naturally aligned access, true on a
misaligned access of a multiple, else as the launch state says. -/
def State.alignTrap (s : State) (i : Instr) (a : Word) (n : Nat) : Bool :=
  a.toNat % n != 0 && (isMultiple i || s.alignRules.any (fun r => r.covers (encode i) a))

/-- The first of the `n` bytes from `a` on that `Admit` rejects (R47, R144, R160). -/
def State.firstRejected (s : State) (kind : AccessKind) (a : Word) (n : Nat) : Option Word :=
  ((List.range n).map (addrPlus a)).find? (fun b => !s.admits kind b)

/-- The check of R47 before an access of `n` bytes at `a`: nothing, or the exception it raises. -/
def State.check (s : State) (i : Instr) (a : Word) (n : Nat) (kind : AccessKind) : Option FaultKind :=
  match s.alignTrap i a n, s.firstRejected kind a n with
  | true, some bad => if s.alignBeforeDSI then some (.alignment a kind) else some (.dsi bad kind)
  | true, none => some (.alignment a kind)
  | false, some bad => some (.dsi bad kind)
  | false, none => none

/-- The check of a multiple of `n` words at `a` (R144, R145): the first word's, then the first byte of the block that
`Admit` rejects. (Past the first word the accesses are aligned.) -/
def State.checkMultiple (s : State) (i : Instr) (a : Word) (n : Nat) (kind : AccessKind) : Option FaultKind :=
  match s.check i a 4 kind with
  | some e => some e
  | none => (s.firstRejected kind a (4 * n)).map (fun bad => .dsi bad kind)

/-! ## Taking an exception -/

/-- `raise E(info)` (R170, R176): the fault record is set to the kind, the pc of the instruction and its word; the pc
is not advanced and nothing else changes. There is no handler, no trap entry beyond this and no return (R178, R181). -/
def State.raise (s : State) (e : FaultKind) (word : Word) : State :=
  { s with faultRecord := some { kind := e, pc := s.pc, word := word } }

/-- The next state of an instruction that raises: R170, with the instruction's own word in the record. -/
def State.raiseAt (s : State) (i : Instr) (e : FaultKind) : Result := .next (s.raise e (encode i))

/-- The line `if ... then invalid_form(...)` at the head of a rule's pseudocode (R7, R70, R71): an invalid form is
recorded and computes nothing. -/
def whenValid (i : Instr) (s : State) (k : Result) : Result :=
  match invalidForm? i with
  | some reason => s.raiseAt i (.invalidForm reason)
  | none => k

/-! ## The shared shapes of the scalar instructions -/

/-- A load that passed decoding (R90, R108): the check, then `x[RT] <- v`, then `pc <- pc + 4`. -/
def loadTo (i : Instr) (s : State) (ea : Word) (n : Nat) (rt : Reg) (v : Word) : Result :=
  match s.check i ea n .load with
  | some e => s.raiseAt i e
  | none => .next (s.setX rt v).advance

/-- A load with update (R91): the invalid form, the check, `x[RT] <- v`, `x[RA] <- EA`, `pc <- pc + 4`. -/
def loadToU (i : Instr) (s : State) (ea : Word) (n : Nat) (rt ra : Reg) (v : Word) : Result :=
  whenValid i s
    (match s.check i ea n .load with
     | some e => s.raiseAt i e
     | none => .next ((s.setX rt v).setX ra ea).advance)

/-- A store (R110, R125): the check, the bytes at EA, `pc <- pc + 4`. -/
def storeFrom (i : Instr) (s : State) (ea : Word) (bs : List Byte) : Result :=
  match s.check i ea bs.length .store with
  | some e => s.raiseAt i e
  | none => .next (s.storeBytes ea bs).advance

/-- A store with update (R111): the invalid form, the check, the bytes at EA, `x[RA] <- EA`, `pc <- pc + 4`. -/
def storeFromU (i : Instr) (s : State) (ea : Word) (ra : Reg) (bs : List Byte) : Result :=
  whenValid i s
    (match s.check i ea bs.length .store with
     | some e => s.raiseAt i e
     | none => .next ((s.storeBytes ea bs).setX ra ea).advance)

/-! ## The transfers of multiples and strings

Each of the four performs, in ascending order, those of the `n` transfers that `pick` names; the completed instruction
performs all, one that took a DSI some of the admitted ones. -/

/-- lmw: the word at `EA + 4j` into GPR `RT + j` (R141). -/
def State.loadWords (s : State) (pick : Nat → Bool) (rt : Reg) (ea : Word) : Nat → State
  | 0 => s
  | n + 1 =>
    let t := s.loadWords pick rt ea n
    if pick n then t.setX (runReg rt n) (s.wordAt (addrPlus ea (4 * n))) else t

/-- stmw: GPR `RS + j` into the word at `EA + 4j` (R142). -/
def State.storeWords (s : State) (pick : Nat → Bool) (rs : Reg) (ea : Word) : Nat → State
  | 0 => s
  | n + 1 =>
    let t := s.storeWords pick rs ea n
    if pick n then t.storeBytes (addrPlus ea (4 * n)) (wordBytes (s.x (runReg rs n))) else t

/-- The line `if j mod 4 = 0 then x[r] <- 0` of lswi and lswx, `r` the register of byte `j` (R153, R154). -/
def State.clearForByte (s : State) (rt : Reg) (j : Nat) : State :=
  if j % 4 = 0 then s.setX (runReg rt (j / 4)) 0#32 else s

/-- The line that puts byte `j` of the string into byte `j mod 4` of register `R(j div 4)` (R152 to R154). -/
def State.putStringByte (s : State) (rt : Reg) (j : Nat) (b : Byte) : State :=
  s.setX (runReg rt (j / 4)) (withRegByte (s.x (runReg rt (j / 4))) (j % 4) b)

/-- lswi, lswx: byte `EA + j` into the run of registers from `RT` on (R152, R153, R154); `clear` names the passes that
clear their register first. -/
def State.loadString (s : State) (clear pick : Nat → Bool) (rt : Reg) (ea : Word) : Nat → State
  | 0 => s
  | n + 1 =>
    let t := s.loadString clear pick rt ea n
    let u := if clear n then t.clearForByte rt n else t
    if pick n then u.putStringByte rt n (s.byteAt (addrPlus ea n)) else u

/-- stswi, stswx: byte `j` of the run of registers from `RS` on into `EA + j` (R152, R155, R156). -/
def State.storeString (s : State) (pick : Nat → Bool) (rs : Reg) (ea : Word) : Nat → State
  | 0 => s
  | n + 1 =>
    let t := s.storeString pick rs ea n
    if pick n then t.storeByte (addrPlus ea n) (regByte (s.x (runReg rs (n / 4))) (n % 4)) else t

/-- The free choice of R144: word `j` of the block was moved, which it can only be if its four bytes are admitted. -/
def State.pickWord (s : State) (kind : AccessKind) (ea : Word) (j : Nat) : Bool :=
  (s.firstRejected kind (addrPlus ea (4 * j)) 4).isNone && Config.freeChoice s.freeCount j

/-- The free choice of R160: byte `j` of the string was moved, which it can only be if it is admitted. -/
def State.pickByte (s : State) (kind : AccessKind) (ea : Word) (j : Nat) : Bool :=
  s.admits kind (addrPlus ea j) && Config.freeChoice s.freeCount j

/-- The free choice of R160: pass `j` of a load string of `n` bytes, the first pass on its register, cleared the register
first, which it can only have done if one of the byte transfers into that register was performed: without one the
register holds its old value (notes/assumptions/19.md). -/
def State.pickClear (s : State) (ea : Word) (n j : Nat) : Bool :=
  (List.range 4).any (fun b => j + b < n && s.pickByte .load ea (j + b)) && Config.freeClear s.freeCount j

/-- A free draw used up. -/
def State.drawn (s : State) : State := { s with freeCount := s.freeCount + 1 }

/-- What an instruction that moves a block does with the outcome of its check: nothing raised, all transfers and
`pc <- pc + 4`; a DSI, the freely chosen transfers and the record (R144, R160); Alignment, only the record (R145). -/
def blockResult (i : Instr) (raised : Option FaultKind) (s whole part : State) : Result :=
  match raised with
  | none => .next whole.advance
  | some (.dsi a kind) => part.drawn.raiseAt i (.dsi a kind)
  | some e => s.raiseAt i e

/-- The body of lswi and lswx (R153, R154, R160). -/
def loadStringTo (i : Instr) (s : State) (rt : Reg) (ea : Word) (n : Nat) : Result :=
  blockResult i ((s.firstRejected .load ea n).map (fun bad => .dsi bad .load)) s
    (s.loadString (fun _ => true) (fun _ => true) rt ea n) (s.loadString (s.pickClear ea n) (s.pickByte .load ea) rt ea n)

/-- The body of stswi and stswx (R155, R156, R160). -/
def storeStringFrom (i : Instr) (s : State) (rs : Reg) (ea : Word) (n : Nat) : Result :=
  blockResult i ((s.firstRejected .store ea n).map (fun bad => .dsi bad .store)) s
    (s.storeString (fun _ => true) rs ea n) (s.storeString (s.pickByte .store ea) rs ea n)

end Sys2Proof.Machine
end

