-- ==== Sys2Proof/Machine/ByteReverse.lean ====
section
/-! DEFINITION. The four byte-reverse instructions (spec 43_byte_reverse R130 to R135). -/

namespace Sys2Proof.Machine

/-- lhbrx, Load Half Word Byte-Reverse Indexed (R131). -/
def execLhbrx (rt ra rb : Reg) (s : State) : Result :=
  let ea := s.eaIdx ra rb
  loadTo (.lhbrx rt ra rb) s ea 2 rt (zextHalf (reverseHalf (s.halfAt ea)))

/-- lwbrx, Load Word Byte-Reverse Indexed (R132). -/
def execLwbrx (rt ra rb : Reg) (s : State) : Result :=
  let ea := s.eaIdx ra rb
  loadTo (.lwbrx rt ra rb) s ea 4 rt (reverseWord (s.wordAt ea))

/-- sthbrx, Store Half Word Byte-Reverse Indexed (R133). -/
def execSthbrx (rs ra rb : Reg) (s : State) : Result :=
  storeFrom (.sthbrx rs ra rb) s (s.eaIdx ra rb) (halfBytes (reverseHalf (lowHalf (s.x rs))))

/-- stwbrx, Store Word Byte-Reverse Indexed (R134). -/
def execStwbrx (rs ra rb : Reg) (s : State) : Result :=
  storeFrom (.stwbrx rs ra rb) s (s.eaIdx ra rb) (wordBytes (reverseWord (s.x rs)))


end Sys2Proof.Machine
end

