-- ==== Sys2Proof/Machine/Load.lean ====
section
/-! DEFINITION. The 16 integer loads (spec 41_integer_load R90 to R108). -/

namespace Sys2Proof.Machine

/-- lbz, Load Byte and Zero (R92). -/
def execLbz (rt ra : Reg) (d : Imm) (s : State) : Result :=
  let ea := s.eaImm ra d
  loadTo (.lbz rt ra d) s ea 1 rt (zextByte (s.byteAt ea))

/-- lbzx, Load Byte and Zero Indexed (R93). -/
def execLbzx (rt ra rb : Reg) (s : State) : Result :=
  let ea := s.eaIdx ra rb
  loadTo (.lbzx rt ra rb) s ea 1 rt (zextByte (s.byteAt ea))

/-- lbzu, Load Byte and Zero with Update (R94, R91). -/
def execLbzu (rt ra : Reg) (d : Imm) (s : State) : Result :=
  let ea := s.eaImmU ra d
  loadToU (.lbzu rt ra d) s ea 1 rt ra (zextByte (s.byteAt ea))

/-- lbzux, Load Byte and Zero with Update Indexed (R95, R91). -/
def execLbzux (rt ra rb : Reg) (s : State) : Result :=
  let ea := s.eaIdxU ra rb
  loadToU (.lbzux rt ra rb) s ea 1 rt ra (zextByte (s.byteAt ea))

/-- lhz, Load Half Word and Zero (R96). -/
def execLhz (rt ra : Reg) (d : Imm) (s : State) : Result :=
  let ea := s.eaImm ra d
  loadTo (.lhz rt ra d) s ea 2 rt (zextHalf (s.halfAt ea))

/-- lhzx, Load Half Word and Zero Indexed (R97). -/
def execLhzx (rt ra rb : Reg) (s : State) : Result :=
  let ea := s.eaIdx ra rb
  loadTo (.lhzx rt ra rb) s ea 2 rt (zextHalf (s.halfAt ea))

/-- lhzu, Load Half Word and Zero with Update (R98, R91). -/
def execLhzu (rt ra : Reg) (d : Imm) (s : State) : Result :=
  let ea := s.eaImmU ra d
  loadToU (.lhzu rt ra d) s ea 2 rt ra (zextHalf (s.halfAt ea))

/-- lhzux, Load Half Word and Zero with Update Indexed (R99, R91). -/
def execLhzux (rt ra rb : Reg) (s : State) : Result :=
  let ea := s.eaIdxU ra rb
  loadToU (.lhzux rt ra rb) s ea 2 rt ra (zextHalf (s.halfAt ea))

/-- lha, Load Half Word Algebraic (R100). -/
def execLha (rt ra : Reg) (d : Imm) (s : State) : Result :=
  let ea := s.eaImm ra d
  loadTo (.lha rt ra d) s ea 2 rt (sextHalf (s.halfAt ea))

/-- lhax, Load Half Word Algebraic Indexed (R101). -/
def execLhax (rt ra rb : Reg) (s : State) : Result :=
  let ea := s.eaIdx ra rb
  loadTo (.lhax rt ra rb) s ea 2 rt (sextHalf (s.halfAt ea))

/-- lhau, Load Half Word Algebraic with Update (R102, R91). -/
def execLhau (rt ra : Reg) (d : Imm) (s : State) : Result :=
  let ea := s.eaImmU ra d
  loadToU (.lhau rt ra d) s ea 2 rt ra (sextHalf (s.halfAt ea))

/-- lhaux, Load Half Word Algebraic with Update Indexed (R103, R91). -/
def execLhaux (rt ra rb : Reg) (s : State) : Result :=
  let ea := s.eaIdxU ra rb
  loadToU (.lhaux rt ra rb) s ea 2 rt ra (sextHalf (s.halfAt ea))

/-- lwz, Load Word and Zero (R104). -/
def execLwz (rt ra : Reg) (d : Imm) (s : State) : Result :=
  let ea := s.eaImm ra d
  loadTo (.lwz rt ra d) s ea 4 rt (s.wordAt ea)

/-- lwzx, Load Word and Zero Indexed (R105). -/
def execLwzx (rt ra rb : Reg) (s : State) : Result :=
  let ea := s.eaIdx ra rb
  loadTo (.lwzx rt ra rb) s ea 4 rt (s.wordAt ea)

/-- lwzu, Load Word and Zero with Update (R106, R91). -/
def execLwzu (rt ra : Reg) (d : Imm) (s : State) : Result :=
  let ea := s.eaImmU ra d
  loadToU (.lwzu rt ra d) s ea 4 rt ra (s.wordAt ea)

/-- lwzux, Load Word and Zero with Update Indexed (R107, R91). -/
def execLwzux (rt ra rb : Reg) (s : State) : Result :=
  let ea := s.eaIdxU ra rb
  loadToU (.lwzux rt ra rb) s ea 4 rt ra (s.wordAt ea)


end Sys2Proof.Machine
end

