-- ==== Sys2Proof/Machine/Multiple.lean ====
section
/-! DEFINITION. The two multiples (spec 44_load_store_multiple R140 to R146). -/

namespace Sys2Proof.Machine

/-- lmw, Load Multiple Word (R141, R143 to R145): `n = 32 - rD` words into GPRs rD to 31. -/
def execLmw (rt ra : Reg) (d : Imm) (s : State) : Result :=
  let ea := s.eaImm ra d
  let n := multipleCount rt
  whenValid (.lmw rt ra d) s
    (blockResult (.lmw rt ra d) (s.checkMultiple (.lmw rt ra d) ea n .load) s
      (s.loadWords (fun _ => true) rt ea n) (s.loadWords (s.pickWord .load ea) rt ea n))

/-- stmw, Store Multiple Word (R142, R144, R145): `n = 32 - rS` words from GPRs rS to 31. -/
def execStmw (rs ra : Reg) (d : Imm) (s : State) : Result :=
  let ea := s.eaImm ra d
  let n := multipleCount rs
  blockResult (.stmw rs ra d) (s.checkMultiple (.stmw rs ra d) ea n .store) s
    (s.storeWords (fun _ => true) rs ea n) (s.storeWords (s.pickWord .store ea) rs ea n)


end Sys2Proof.Machine
end

