-- ==== Sys2Proof/Machine/Store.lean ====
section
/-! DEFINITION. The 12 integer stores (spec 42_integer_store R110 to R125). -/

namespace Sys2Proof.Machine

/-- stb, Store Byte (R113). -/
def execStb (rs ra : Reg) (d : Imm) (s : State) : Result :=
  storeFrom (.stb rs ra d) s (s.eaImm ra d) [lowByte (s.x rs)]

/-- stbx, Store Byte Indexed (R114). -/
def execStbx (rs ra rb : Reg) (s : State) : Result :=
  storeFrom (.stbx rs ra rb) s (s.eaIdx ra rb) [lowByte (s.x rs)]

/-- stbu, Store Byte with Update (R115, R111): the old contents of rS, also when rS = rA. -/
def execStbu (rs ra : Reg) (d : Imm) (s : State) : Result :=
  storeFromU (.stbu rs ra d) s (s.eaImmU ra d) ra [lowByte (s.x rs)]

/-- stbux, Store Byte with Update Indexed (R116, R111): the old contents of rS, also when rS = rA. -/
def execStbux (rs ra rb : Reg) (s : State) : Result :=
  storeFromU (.stbux rs ra rb) s (s.eaIdxU ra rb) ra [lowByte (s.x rs)]

/-- sth, Store Half Word (R117). -/
def execSth (rs ra : Reg) (d : Imm) (s : State) : Result :=
  storeFrom (.sth rs ra d) s (s.eaImm ra d) (halfBytes (lowHalf (s.x rs)))

/-- sthx, Store Half Word Indexed (R118). -/
def execSthx (rs ra rb : Reg) (s : State) : Result :=
  storeFrom (.sthx rs ra rb) s (s.eaIdx ra rb) (halfBytes (lowHalf (s.x rs)))

/-- sthu, Store Half Word with Update (R119, R111): the old contents of rS, also when rS = rA. -/
def execSthu (rs ra : Reg) (d : Imm) (s : State) : Result :=
  storeFromU (.sthu rs ra d) s (s.eaImmU ra d) ra (halfBytes (lowHalf (s.x rs)))

/-- sthux, Store Half Word with Update Indexed (R120, R111): the old contents of rS, also when rS = rA. -/
def execSthux (rs ra rb : Reg) (s : State) : Result :=
  storeFromU (.sthux rs ra rb) s (s.eaIdxU ra rb) ra (halfBytes (lowHalf (s.x rs)))

/-- stw, Store Word (R121). -/
def execStw (rs ra : Reg) (d : Imm) (s : State) : Result :=
  storeFrom (.stw rs ra d) s (s.eaImm ra d) (wordBytes (s.x rs))

/-- stwx, Store Word Indexed (R122). -/
def execStwx (rs ra rb : Reg) (s : State) : Result :=
  storeFrom (.stwx rs ra rb) s (s.eaIdx ra rb) (wordBytes (s.x rs))

/-- stwu, Store Word with Update (R123, R111): the old contents of rS, also when rS = rA. -/
def execStwu (rs ra : Reg) (d : Imm) (s : State) : Result :=
  storeFromU (.stwu rs ra d) s (s.eaImmU ra d) ra (wordBytes (s.x rs))

/-- stwux, Store Word with Update Indexed (R124, R111): the old contents of rS, also when rS = rA. -/
def execStwux (rs ra rb : Reg) (s : State) : Result :=
  storeFromU (.stwux rs ra rb) s (s.eaIdxU ra rb) ra (wordBytes (s.x rs))


end Sys2Proof.Machine
end

