-- ==== Sys2Proof/Machine/StringMove.lean ====
section
/-! DEFINITION. The four string instructions (spec 45_load_store_string R150 to R160). -/

namespace Sys2Proof.Machine

/-- lswi, Load String Word Immediate (R153). The EA is base(RA) alone (R83). -/
def execLswi (rt ra : Reg) (nb : Count) (s : State) : Result :=
  whenValid (.lswi rt ra nb) s (loadStringTo (.lswi rt ra nb) s rt (s.base ra) (immediateCount nb))

/-- lswx, Load String Word Indexed (R154, R157): with a byte count of zero, rD becomes a free value and no memory is
accessed; with rA or rB in the run, `Refused` is recorded before any access. -/
def execLswx (rt ra rb : Reg) (s : State) : Result :=
  let n := s.xerByteCount
  whenValid (.lswx rt ra rb) s
    (if n = 0 then .next (s.setX rt (Config.freeWord s.freeCount)).drawn.advance
     else if inRun rt n ra || inRun rt n rb then s.raiseAt (.lswx rt ra rb) (.refused .lswxRange)
     else loadStringTo (.lswx rt ra rb) s rt (s.eaIdx ra rb) n)

/-- stswi, Store String Word Immediate (R155). The EA is base(RA) alone (R83). -/
def execStswi (rs ra : Reg) (nb : Count) (s : State) : Result :=
  storeStringFrom (.stswi rs ra nb) s rs (s.base ra) (immediateCount nb)

/-- stswx, Store String Word Indexed (R156): a byte count of zero stores nothing and raises nothing. -/
def execStswx (rs ra rb : Reg) (s : State) : Result :=
  storeStringFrom (.stswx rs ra rb) s rs (s.eaIdx ra rb) s.xerByteCount


end Sys2Proof.Machine
end

