-- ==== Sys2Proof/Machine/Dispatch.lean ====
section
/-! DEFINITION. One arm per instruction, each the direct call of its meaning. -/

namespace Sys2Proof.Machine

def exec (i : Instr) (s : State) : Host.Outcome State Fault Refusal :=
  match i with
  | .lbz rt ra d => Sys2Proof.Machine.execLbz rt ra d s
  | .lbzx rt ra rb => Sys2Proof.Machine.execLbzx rt ra rb s
  | .lbzu rt ra d => Sys2Proof.Machine.execLbzu rt ra d s
  | .lbzux rt ra rb => Sys2Proof.Machine.execLbzux rt ra rb s
  | .lhz rt ra d => Sys2Proof.Machine.execLhz rt ra d s
  | .lhzx rt ra rb => Sys2Proof.Machine.execLhzx rt ra rb s
  | .lhzu rt ra d => Sys2Proof.Machine.execLhzu rt ra d s
  | .lhzux rt ra rb => Sys2Proof.Machine.execLhzux rt ra rb s
  | .lha rt ra d => Sys2Proof.Machine.execLha rt ra d s
  | .lhax rt ra rb => Sys2Proof.Machine.execLhax rt ra rb s
  | .lhau rt ra d => Sys2Proof.Machine.execLhau rt ra d s
  | .lhaux rt ra rb => Sys2Proof.Machine.execLhaux rt ra rb s
  | .lwz rt ra d => Sys2Proof.Machine.execLwz rt ra d s
  | .lwzx rt ra rb => Sys2Proof.Machine.execLwzx rt ra rb s
  | .lwzu rt ra d => Sys2Proof.Machine.execLwzu rt ra d s
  | .lwzux rt ra rb => Sys2Proof.Machine.execLwzux rt ra rb s
  | .stb rs ra d => Sys2Proof.Machine.execStb rs ra d s
  | .stbx rs ra rb => Sys2Proof.Machine.execStbx rs ra rb s
  | .stbu rs ra d => Sys2Proof.Machine.execStbu rs ra d s
  | .stbux rs ra rb => Sys2Proof.Machine.execStbux rs ra rb s
  | .sth rs ra d => Sys2Proof.Machine.execSth rs ra d s
  | .sthx rs ra rb => Sys2Proof.Machine.execSthx rs ra rb s
  | .sthu rs ra d => Sys2Proof.Machine.execSthu rs ra d s
  | .sthux rs ra rb => Sys2Proof.Machine.execSthux rs ra rb s
  | .stw rs ra d => Sys2Proof.Machine.execStw rs ra d s
  | .stwx rs ra rb => Sys2Proof.Machine.execStwx rs ra rb s
  | .stwu rs ra d => Sys2Proof.Machine.execStwu rs ra d s
  | .stwux rs ra rb => Sys2Proof.Machine.execStwux rs ra rb s
  | .lhbrx rt ra rb => Sys2Proof.Machine.execLhbrx rt ra rb s
  | .lwbrx rt ra rb => Sys2Proof.Machine.execLwbrx rt ra rb s
  | .sthbrx rs ra rb => Sys2Proof.Machine.execSthbrx rs ra rb s
  | .stwbrx rs ra rb => Sys2Proof.Machine.execStwbrx rs ra rb s
  | .lmw rt ra d => Sys2Proof.Machine.execLmw rt ra d s
  | .stmw rs ra d => Sys2Proof.Machine.execStmw rs ra d s
  | .lswi rt ra nb => Sys2Proof.Machine.execLswi rt ra nb s
  | .lswx rt ra rb => Sys2Proof.Machine.execLswx rt ra rb s
  | .stswi rs ra nb => Sys2Proof.Machine.execStswi rs ra nb s
  | .stswx rs ra rb => Sys2Proof.Machine.execStswx rs ra rb s

end Sys2Proof.Machine
end

