-- ==== Sys2Proof/Machine/Fetch.lean ====
section
/-! DEFINITION. Instruction fetch (spec 20_memory R42, R48, R56; 10_state R24), what a word that does not decode is
recorded as (60_exceptions R176), and the placing of one instruction at the pc. -/

namespace Sys2Proof.Machine

/-- What a fetch at the pc gives. -/
inductive Fetched where
  /-- The pc is just past the last instruction of the program text: the run is over (R24). -/
  | ended
  /-- The pc is not the address of an instruction of the program text (R24). -/
  | outside
  /-- A byte of the word has been stored to since launch (R56). -/
  | stale
  /-- The instruction word (R42). -/
  | word (w : Word)
deriving DecidableEq, Repr

/-- Whether a byte of the word at `a` is in `Dirty` (R56). -/
def State.isStale (s : State) (a : Word) : Bool := (List.range 4).any (fun k => s.dirty.contains (addrPlus a k).toNat)

/-- The fetch at the pc, in the order of R24, R177, R42. -/
def State.fetch (s : State) : Fetched :=
  if s.isInsnAddr s.pc then
    if s.isStale s.pc then .stale else .word (s.wordAt s.pc)
  else if s.textEnd = some s.pc then .ended else .outside

/-- What a word that does not decode is recorded as (R176). -/
def undecodedKind : Undecoded → FaultKind
  | .notInScope => .notInScope
  | .invalidForm reason => .invalidForm reason

/-- The state after a stale fetch (R56, R32): the record of kind `StaleFetch`, its word a free value, since the chip would
fetch the old or the new one. -/
def State.raiseStale (s : State) : State := s.drawn.raise (.staleFetch s.pc) (Config.freeWord s.freeCount)

/-- The memory with a word's four bytes at `a` (R41). -/
def Memory.writeWord (m : Memory) (a w : Word) : Memory :=
  (((m.write a.toNat (regByte w 0)).write (addrPlus a 1).toNat (regByte w 1)).write
    (addrPlus a 2).toNat (regByte w 2)).write (addrPlus a 3).toNat (regByte w 3)

/-- The state with the word `w` placed at the pc as program text (R201, R202). -/
def State.placeWord (s : State) (w : Word) : State :=
  { s with
    mem := s.mem.writeWord s.pc w
    dirty := s.dirty.filter (fun a => !((List.range 4).map (fun k => (addrPlus s.pc k).toNat)).contains a)
    codeRegion := if s.isInsnAddr s.pc then s.codeRegion else s.codeRegion ++ [{ base := s.pc, words := 1 }]
    faultRecord := none }

end Sys2Proof.Machine
end

