-- ==== Sys2Proof/Machine/Step.lean ====
section
/-! DEFINITION. One step of the machine (spec 10_state R24, 20_memory R42 and R56, 60_exceptions R170 and R177), and the
load of one instruction at the pc. -/

namespace Sys2Proof.Machine

/-- One step: a state with a fault record takes none (R170); a pc outside the program text ends the run (R24); a stale
fetch is recorded (R56); a word that does not decode is recorded (R71, R72); else the instruction runs. -/
def step (s : State) : Host.Outcome State Fault Refusal :=
  match s.faultRecord with
  | some r => .fault (.recorded r)
  | none =>
    match s.fetch with
    | .ended => .refused .programEnded
    | .outside => .refused .outsideProgramText
    | .stale => .next s.raiseStale
    | .word w =>
      match decode w with
      | .error e => .next (s.raise (undecodedKind e) w)
      | .ok i => exec i s

/-- The state with the instruction word `w` of `nbits` bits placed where `step` fetches next: its four bytes at the pc,
that word in the program text and not in `Dirty`, no fault record. It stands for the load of a program from outside the
machine (R201; notes/assumptions/4.md). -/
def State.withFetchWord (s : State) (nbits w : Nat) : State := s.placeWord (BitVec.ofNat 32 (w % 2 ^ nbits))

end Sys2Proof.Machine
end

