-- ==== Sys2Proof/Safety.lean ====
section
/-! DEFINITION. What a safe run is, in the terms statements use (spec 10_state R24, 60_exceptions R170). -/

namespace Sys2Proof.Machine

/-- No fault is recorded: the premise of every claim about end states (R170). -/
def State.clean (s : State) : Bool := s.faultRecord.isNone

/-- A final state: the run ended normally, no fault recorded, the pc just past the program text (R24, R170). -/
def State.final (s : State) : Bool := s.clean && s.fetch == .ended

/-- A set of addresses in its one form: strictly rising. -/
def risingAddrs : List Nat → Bool
  | [] => true
  | a :: l => l.all (fun b => a < b) && risingAddrs l

/-- The invariant of the machine: memory and `Dirty` in canonical form (R40, R31), `Dirty` inside the program text
(R31), the pc and the segments of the program text on word boundaries (R23, R60). -/
def State.inv (s : State) : Bool :=
  Memory.wf s.mem && risingAddrs s.dirty && s.dirty.all (fun a => a < 2 ^ 32 && s.inCode (BitVec.ofNat 32 a)) &&
    s.pc.extractLsb' 0 2 == 0#2 && s.codeRegion.all (fun g => g.base.extractLsb' 0 2 == 0#2)

end Sys2Proof.Machine
end

