-- ==== Sys2Proof/Certificates/Slice0/Obligations.lean ====
section
/-! DEFINITION. The statements for the provers, with the predicates they are written in. Each statement's docstring names
the rules of spec/ it states. -/

namespace Sys2Proof.Stated

open Sys2Proof.Machine

/-- The D-form word of R61: the row's match with RT or RS, RA and D at their places. -/
def dWord (m : Word) (rt ra : Reg) (d : Imm) : Word :=
  m ||| (rt.setWidth 32 <<< 21) ||| (ra.setWidth 32 <<< 16) ||| d.setWidth 32

/-- The X-form word of R62: the row's match with RT or RS, RA and RB or NB at their places. -/
def xWord (m : Word) (rt ra rb : Reg) : Word :=
  m ||| (rt.setWidth 32 <<< 21) ||| (ra.setWidth 32 <<< 16) ||| (rb.setWidth 32 <<< 11)

/-- Every one of the `n` bytes from `a` on is admitted for the access kind (R50). -/
def Admitted (s : State) (kind : AccessKind) (a : Word) (n : Nat) : Prop :=
  ∀ k < n, s.admits kind (addrPlus a k) = true

/-- Byte `k` is the first of the `n` bytes from `a` on that `Admit` rejects (R47). -/
def RejectedAt (s : State) (kind : AccessKind) (a : Word) (n k : Nat) : Prop :=
  k < n ∧ s.admits kind (addrPlus a k) = false ∧ Admitted s kind a k

/-- The launch parameters are what they were (R201). -/
def LaunchKept (s t : State) : Prop :=
  t.codeRegion = s.codeRegion ∧ t.noLoad = s.noLoad ∧ t.noStore = s.noStore ∧ t.alignRules = s.alignRules ∧
    t.alignBeforeDSI = s.alignBeforeDSI

/-- What every completed instruction does and leaves alone: the pc steps by 4 (R24), no fault is recorded, the CR and the
XER (R25, R26), the launch parameters and the count of free draws stay. -/
def Completed (s t : State) : Prop :=
  t.pc = s.pc + 4#32 ∧ t.faultRecord = s.faultRecord ∧ t.cr = s.cr ∧ t.xer = s.xer ∧ t.freeCount = s.freeCount ∧
    LaunchKept s t

/-- Every byte of memory reads as before, and `Dirty` is as before. -/
def MemoryKept (s t : State) : Prop := (∀ a, t.byteAt a = s.byteAt a) ∧ t.dirty = s.dirty

/-- The bytes `bs` lie at `ea`, `ea + 1`, ...; every other byte reads as before; `Dirty` has gained the stored bytes of the
program text and nothing else (R41, R56). -/
def Stored (s t : State) (ea : Word) (bs : List Byte) : Prop :=
  (∀ k (h : k < bs.length), t.byteAt (addrPlus ea k) = bs[k]) ∧
    (∀ a, (∀ k < bs.length, a ≠ addrPlus ea k) → t.byteAt a = s.byteAt a) ∧
    ∀ c, c ∈ t.dirty ↔ c ∈ s.dirty ∨ ∃ k < bs.length, s.inCode (addrPlus ea k) = true ∧ c = (addrPlus ea k).toNat

/-- The state with the fault record set for the instruction at the pc, and nothing else changed (R170, R176). -/
def recorded (s : State) (i : Instr) (e : FaultKind) : State :=
  { s with faultRecord := some { kind := e, pc := s.pc, word := encode i } }

/-- How a scalar access of `n` bytes at `ea` raises (R46, R47): Alignment, only if `ea` is no multiple of `n`, or DSI,
`AlignBeforeDSI` choosing when both apply; nothing but the record changes. -/
def Traps (i : Instr) (s : State) (ea : Word) (n : Nat) (kind : AccessKind) : Prop :=
  (ea.toNat % n = 0 → s.alignTrap i ea n = false) ∧
    (s.alignTrap i ea n = true → Admitted s kind ea n ∨ s.alignBeforeDSI = true →
      exec i s = .next (recorded s i (.alignment ea kind))) ∧
    ∀ k, RejectedAt s kind ea n k → s.alignTrap i ea n = false ∨ s.alignBeforeDSI = false →
      exec i s = .next (recorded s i (.dsi (addrPlus ea k) kind))

/-- The whole rule of a load without update: its word decodes to it; where no exception applies, rD receives `v` and
nothing else but the pc changes; else it traps (R90, R108). -/
def LoadRule (w : Word) (i : Instr) (s : State) (ea : Word) (n : Nat) (rt : Reg) (v : Word) : Prop :=
  decode w = .ok i ∧
    (Admitted s .load ea n → s.alignTrap i ea n = false →
      ∃ t, exec i s = .next t ∧ t.x rt = v ∧ (∀ r, r ≠ rt → t.x r = s.x r) ∧ MemoryKept s t ∧ Completed s t) ∧
    Traps i s ea n .load

/-- The whole rule of a load with update: the invalid forms rA = 0 and rA = rD; else rD receives `v` and rA the EA (R91). -/
def LoadUpdateRule (w : Word) (i : Instr) (s : State) (ea : Word) (n : Nat) (rt ra : Reg) (v : Word) : Prop :=
  decode w = .ok i ∧
    (ra = 0#5 ∨ ra = rt → decodeChecked w = .error (.invalidForm .loadUpdate) ∧
      exec i s = .next (recorded s i (.invalidForm .loadUpdate))) ∧
    (ra ≠ 0#5 → ra ≠ rt → decodeChecked w = .ok i ∧
      (Admitted s .load ea n → s.alignTrap i ea n = false →
        ∃ t, exec i s = .next t ∧ t.x rt = v ∧ t.x ra = ea ∧ (∀ r, r ≠ rt → r ≠ ra → t.x r = s.x r) ∧
          MemoryKept s t ∧ Completed s t) ∧
      Traps i s ea n .load)

/-- The whole rule of a store without update: the bytes `bs` are stored at the EA, no register changes (R110, R125). -/
def StoreRule (w : Word) (i : Instr) (s : State) (ea : Word) (bs : List Byte) : Prop :=
  decode w = .ok i ∧
    (Admitted s .store ea bs.length → s.alignTrap i ea bs.length = false →
      ∃ t, exec i s = .next t ∧ Stored s t ea bs ∧ (∀ r, t.x r = s.x r) ∧ Completed s t) ∧
    Traps i s ea bs.length .store

/-- The whole rule of a store with update: the invalid form rA = 0; else the bytes `bs` are stored at the EA and rA
receives the EA (R111). -/
def StoreUpdateRule (w : Word) (i : Instr) (s : State) (ea : Word) (ra : Reg) (bs : List Byte) : Prop :=
  decode w = .ok i ∧
    (ra = 0#5 → decodeChecked w = .error (.invalidForm .storeUpdate) ∧
      exec i s = .next (recorded s i (.invalidForm .storeUpdate))) ∧
    (ra ≠ 0#5 → decodeChecked w = .ok i ∧
      (Admitted s .store ea bs.length → s.alignTrap i ea bs.length = false →
        ∃ t, exec i s = .next t ∧ Stored s t ea bs ∧ t.x ra = ea ∧ (∀ r, r ≠ ra → t.x r = s.x r) ∧ Completed s t) ∧
      Traps i s ea bs.length .store)

/-- Zero extension of a byte: 24 zeros above it (R90). -/
def byteValue (s : State) (a : Word) : Word := 0#24 ++ s.byteAt a

/-- The half word at `a` as a number, the byte at `a` most significant (R41). -/
def halfNat (s : State) (a : Word) : Nat := (s.byteAt a).toNat * 256 + (s.byteAt (addrPlus a 1)).toNat

/-- The half word at `a` as a signed number: its top bit is bit 7 of the byte at `a` (R100). -/
def halfInt (s : State) (a : Word) : Int := if halfNat s a < 0x8000 then halfNat s a else (halfNat s a : Int) - 0x10000

/-- The word at `a`, the byte at `a` most significant (R41). -/
def wordValue (s : State) (a : Word) : Word :=
  s.byteAt a ++ s.byteAt (addrPlus a 1) ++ s.byteAt (addrPlus a 2) ++ s.byteAt (addrPlus a 3)

/-- Byte `k` of a register, counted from the most significant (R152). -/
def byteOf (v : Word) (k : Nat) : Byte := v.extractLsb' (24 - 8 * k) 8

/-- The string transfer into registers (R152): byte `j` of the string is byte `j mod 4` of register `R(j div 4)`, the
unfilled bytes of the last register are zero, registers outside the run keep their contents. -/
def StringLoaded (s t : State) (rt : Reg) (ea : Word) (n : Nat) : Prop :=
  (∀ j < n, byteOf (t.x (runReg rt (j / 4))) (j % 4) = s.byteAt (addrPlus ea j)) ∧
    (∀ j, n ≤ j → j < 4 * ((n + 3) / 4) → byteOf (t.x (runReg rt (j / 4))) (j % 4) = 0#8) ∧
    ∀ r, (∀ k < (n + 3) / 4, r ≠ runReg rt k) → t.x r = s.x r

/-- The bytes a store string moves: byte `j` of the run of registers from rS on (R152). -/
def stringBytes (s : State) (rs : Reg) (n : Nat) : List Byte :=
  (List.range n).map (fun j => byteOf (s.x (runReg rs (j / 4))) (j % 4))

/-- The bytes a store multiple moves: the `n` words of the registers from rS on, big-endian (R142). -/
def multipleBytes (s : State) (rs : Reg) (n : Nat) : List Byte :=
  (List.range (4 * n)).map (fun j => byteOf (s.x (runReg rs (j / 4))) (j % 4))

/-- What an instruction that took a DSI part-way leaves besides memory and registers: the record and the pc; the XER, the
CR and the launch parameters stay (R144, R160, R170). -/
def Interrupted (s t : State) (i : Instr) (a : Word) (kind : AccessKind) : Prop :=
  t.faultRecord = some { kind := .dsi a kind, pc := s.pc, word := encode i } ∧ t.pc = s.pc ∧ t.cr = s.cr ∧
    t.xer = s.xer ∧ LaunchKept s t

/-- A part of the block `bs` was stored at `ea`, the bytes that `done` names, each of them admitted: they read as stored,
every other byte, in the block or outside it, reads as before, and `Dirty` has gained the stored bytes of the program text
and nothing else (R41, R56, R160). -/
def PartlyStored (s t : State) (ea : Word) (bs : List Byte) : Prop :=
  (∃ done : Nat → Bool, (∀ k < bs.length, done k = true → s.admits .store (addrPlus ea k) = true) ∧
      (∀ k (h : k < bs.length), t.byteAt (addrPlus ea k) = if done k then bs[k] else s.byteAt (addrPlus ea k)) ∧
      ∀ c, c ∈ t.dirty ↔ c ∈ s.dirty ∨
        ∃ k < bs.length, done k = true ∧ s.inCode (addrPlus ea k) = true ∧ c = (addrPlus ea k).toNat) ∧
    ∀ a, (∀ k < bs.length, a ≠ addrPlus ea k) → t.byteAt a = s.byteAt a

/-- A part of the string of `n` bytes at `ea` was loaded into the run from `rt` on, the bytes that `done` names, each of
them admitted: a transferred byte is in its place; a register that `cleared` names, into which a byte was transferred, is
zero in its other bytes; every other byte of the run is as before; registers outside the run keep their contents
(R152, R160). -/
def PartlyLoaded (s t : State) (rt : Reg) (ea : Word) (n : Nat) : Prop :=
  (∃ done cleared : Nat → Bool, (∀ j, done j = true → j < n ∧ s.admits .load (addrPlus ea j) = true) ∧
      (∀ q, cleared q = true → ∃ b < 4, done (4 * q + b) = true) ∧
      ∀ j < 4 * ((n + 3) / 4), byteOf (t.x (runReg rt (j / 4))) (j % 4) =
        if done j then s.byteAt (addrPlus ea j)
        else if cleared (j / 4) then 0#8
        else byteOf (s.x (runReg rt (j / 4))) (j % 4)) ∧
    ∀ r, (∀ q < (n + 3) / 4, r ≠ runReg rt q) → t.x r = s.x r

/-- Where the first word of a multiple does not raise Alignment: its EA is a multiple of 4, or `Admit` rejects a byte of
that word and `AlignBeforeDSI` is false (R47, R145). -/
def PastAlignment (s : State) (ea : Word) (k : Nat) : Prop :=
  ea.toNat % 4 = 0 ∨ (k < 4 ∧ s.alignBeforeDSI = false)

/-- A row of R70: the instruction is an invalid form of this row exactly where the condition on its fields holds. -/
def InvalidExactly (i : Instr) (condition : Prop) (row : InvalidReason) : Prop :=
  (condition → invalidForm? i = some row ∧ i.wf = false) ∧ (¬ condition → invalidForm? i = none ∧ i.wf = true)

/-- No row of R70 on operand fields names the instruction. -/
def AlwaysValid (i : Instr) : Prop := invalidForm? i = none ∧ i.wf = true

/-- Where a store stores and how many bytes (files 42 to 45); a load stores none. -/
def storeOperand (s : State) : Instr → Word × Nat
  | .stb _ ra d => (s.eaImm ra d, 1)
  | .stbx _ ra rb => (s.eaIdx ra rb, 1)
  | .stbu _ ra d => (s.eaImmU ra d, 1)
  | .stbux _ ra rb => (s.eaIdxU ra rb, 1)
  | .sth _ ra d => (s.eaImm ra d, 2)
  | .sthx _ ra rb | .sthbrx _ ra rb => (s.eaIdx ra rb, 2)
  | .sthu _ ra d => (s.eaImmU ra d, 2)
  | .sthux _ ra rb => (s.eaIdxU ra rb, 2)
  | .stw _ ra d => (s.eaImm ra d, 4)
  | .stwx _ ra rb | .stwbrx _ ra rb => (s.eaIdx ra rb, 4)
  | .stwu _ ra d => (s.eaImmU ra d, 4)
  | .stwux _ ra rb => (s.eaIdxU ra rb, 4)
  | .stmw rs ra d => (s.eaImm ra d, 4 * (32 - rs.toNat))
  | .stswi _ ra nb => (s.base ra, immediateCount nb)
  | .stswx _ ra rb => (s.eaIdx ra rb, s.xerByteCount)
  | .lbz .. | .lbzx .. | .lbzu .. | .lbzux .. | .lhz .. | .lhzx .. | .lhzu .. | .lhzux .. | .lha .. | .lhax .. | .lhau ..
  | .lhaux .. | .lwz .. | .lwzx .. | .lwzu .. | .lwzux .. | .lhbrx .. | .lwbrx .. | .lmw .. | .lswi .. | .lswx .. =>
    (0#32, 0)

/-- The registers an instruction may write: its rD (or its run), and in an update form its rA (R21). -/
def mayWrite (s : State) : Instr → Reg → Prop
  | .lbz rt _ _, r | .lhz rt _ _, r | .lha rt _ _, r | .lwz rt _ _, r => r = rt
  | .lbzx rt _ _, r | .lhzx rt _ _, r | .lhax rt _ _, r | .lwzx rt _ _, r | .lhbrx rt _ _, r | .lwbrx rt _ _, r => r = rt
  | .lbzu rt ra _, r | .lhzu rt ra _, r | .lhau rt ra _, r | .lwzu rt ra _, r => r = rt ∨ r = ra
  | .lbzux rt ra _, r | .lhzux rt ra _, r | .lhaux rt ra _, r | .lwzux rt ra _, r => r = rt ∨ r = ra
  | .stbu _ ra _, r | .sthu _ ra _, r | .stwu _ ra _, r => r = ra
  | .stbux _ ra _, r | .sthux _ ra _, r | .stwux _ ra _, r => r = ra
  | .lmw rt _ _, r => rt.toNat ≤ r.toNat
  | .lswi rt _ nb, r => ∃ k < (immediateCount nb + 3) / 4, r = runReg rt k
  | .lswx rt _ _, r => r = rt ∨ ∃ k < (s.xerByteCount + 3) / 4, r = runReg rt k
  | .stb .., _ | .stbx .., _ | .sth .., _ | .sthx .., _ | .stw .., _ | .stwx .., _ | .sthbrx .., _ | .stwbrx .., _
  | .stmw .., _ | .stswi .., _ | .stswx .., _ => False

/-- The base register rA of an update form (R85). -/
def updateBase : Instr → Option Reg
  | .lbzu _ ra _ | .lhzu _ ra _ | .lhau _ ra _ | .lwzu _ ra _ | .stbu _ ra _ | .sthu _ ra _ | .stwu _ ra _ => some ra
  | .lbzux _ ra _ | .lhzux _ ra _ | .lhaux _ ra _ | .lwzux _ ra _ | .stbux _ ra _ | .sthux _ ra _ | .stwux _ ra _ => some ra
  | _ => none

/-- The access kind of an instruction: a store stores, every other loads (R176). -/
def kindOf (i : Instr) : AccessKind := if isStore i then .store else .load

/-- The instructions that can take an Alignment exception: those that make half-word or word accesses (R174). -/
def canMisalign : Instr → Prop
  | .lbz .. | .lbzx .. | .lbzu .. | .lbzux .. | .stb .. | .stbx .. | .stbu .. | .stbux .. | .lswi .. | .lswx ..
  | .stswi .. | .stswx .. => False
  | .lhz .. | .lhzx .. | .lhzu .. | .lhzux .. | .lha .. | .lhax .. | .lhau .. | .lhaux .. | .lwz .. | .lwzx ..
  | .lwzu .. | .lwzux .. | .sth .. | .sthx .. | .sthu .. | .sthux .. | .stw .. | .stwx .. | .stwu .. | .stwux ..
  | .lhbrx .. | .lwbrx .. | .sthbrx .. | .stwbrx .. | .lmw .. | .stmw .. => True

/-- Whether the instruction is lswx (R174, the Refused row). -/
def isLswx : Instr → Prop
  | .lswx .. => True
  | _ => False

/-- The events of R174: what executing an instruction can record. -/
def mayRaise (i : Instr) : FaultKind → Prop
  | .dsi _ kind => kind = kindOf i
  | .alignment _ kind => kind = kindOf i ∧ canMisalign i
  | .invalidForm reason => invalidForm? i = some reason
  | .refused _ => isLswx i
  | .notInScope | .staleFetch _ => False

/-- The extended opcodes of R68. -/
def knownXo : List Nat :=
  [23, 55, 87, 119, 151, 183, 215, 247, 279, 311, 343, 375, 407, 439, 533, 534, 597, 661, 662, 725, 790, 918]

end Sys2Proof.Stated

open Sys2Proof Sys2Proof.Machine Sys2Proof.Stated

/-- Decoding the word of any instruction gives that instruction back (the encodings are the spec's own completion,
D18, log 11). Derived: 30_encoding sections 2, 4. -/
def Obligations.DecodeOfEncodeIsTheInstruction : Prop :=
  ∀ i : Instr, decode (encode i) = .ok i ∧ (i.wf = true → decodeChecked (encode i) = .ok i)

/-- A word that decodes to an instruction is that instruction's word (the encodings are the spec's own completion,
D18, log 11). Derived: 30_encoding sections 2, 4. -/
def Obligations.EncodeOfDecodeIsTheWord : Prop :=
  ∀ (w : Word) (i : Instr), decode w = .ok i → encode i = w

/-- The decoding procedure R71: which words decode, which are invalid forms, which are out of scope (R71 is marked
derived by the spec; encodings D18, log 11). Derived: 30_encoding sections 4, 5. -/
def Obligations.DecodeIsTotalByOpcodeMaps : Prop :=
  (∀ w : Word, 32 ≤ fieldOpcd w → fieldOpcd w ≤ 47 → ∃ i, decode w = .ok i ∧ encode i = w) ∧
    (∀ w : Word, fieldOpcd w = 31 → fieldXo w ∈ knownXo → fieldRc w = false → ∃ i, decode w = .ok i ∧ encode i = w) ∧
    (∀ w : Word, fieldOpcd w = 31 → fieldXo w ∈ knownXo → fieldRc w = true →
      ∃ reason, decode w = .error (.invalidForm reason)) ∧
    (∀ w : Word, ¬(32 ≤ fieldOpcd w ∧ fieldOpcd w ≤ 47) → ¬(fieldOpcd w = 31 ∧ fieldXo w ∈ knownXo) →
      decode w = .error .notInScope) ∧
    (∀ (w : Word) (e : Undecoded), decode w = .error e → decodeChecked w = .error e) ∧
    ∀ (w : Word) (i : Instr), decode w = .ok i →
      (∀ reason, invalidForm? i = some reason → decodeChecked w = .error (.invalidForm reason)) ∧
      (invalidForm? i = none → decodeChecked w = .ok i)

/-- Words of the spec decode to the instructions they stand for (encodings D18, log 11). Derived: 95_test_vectors
section 2. -/
def Obligations.SpecWordsDecode : Prop :=
  decode 0x8064FFFC#32 = .ok (.lwz 3 4 0xFFFC) ∧ decode 0x7C6428AE#32 = .ok (.lbzx 3 4 5) ∧
    decode 0x9421FFF0#32 = .ok (.stwu 1 1 0xFFF0) ∧ decode 0x7C642B2E#32 = .ok (.sthx 3 4 5) ∧
    decode 0x7C642C2C#32 = .ok (.lwbrx 3 4 5) ∧ decode 0x7C642F2C#32 = .ok (.sthbrx 3 4 5) ∧
    decode 0xBBA10004#32 = .ok (.lmw 29 1 4) ∧ decode 0xBFA10004#32 = .ok (.stmw 29 1 4) ∧
    decode 0x7FC374AA#32 = .ok (.lswi 30 3 14) ∧ decode 0x7CA3242A#32 = .ok (.lswx 5 3 4) ∧
    decode 0x7C642214#32 = .error .notInScope ∧ decode 0x7C64282F#32 = .error (.invalidForm .loadRc)

/-- An X-form word with bit 31 set is an invalid form (for the loads this is the spec's decision D21, log 24).
Derived: 30_encoding section 5. -/
def Obligations.BitThirtyOneSetIsAnInvalidForm : Prop :=
  ∀ i : Instr, fieldOpcd (encode i) = 31 →
    decode (encode i ||| 1#32) = .error (.invalidForm (if isStore i then .storeRc else .loadRc))

/-- The operand-field conditions of the invalid forms are the rows of R70 (rows 6 and 7 are the spec's general
knowledge, D17, logs 12 and 24). Derived: 30_encoding section 5. -/
def Obligations.InvalidFormsAreTheRowsOfR70 : Prop :=
  ∀ (rt ra rb : Reg) (d : Imm) (nb : Count),
    (∀ i ∈ [Instr.lbzu rt ra d, .lbzux rt ra rb, .lhzu rt ra d, .lhzux rt ra rb,
        .lhau rt ra d, .lhaux rt ra rb, .lwzu rt ra d, .lwzux rt ra rb],
      InvalidExactly i (ra = 0#5 ∨ ra = rt) .loadUpdate) ∧
    (∀ i ∈ [Instr.stbu rt ra d, .stbux rt ra rb, .sthu rt ra d, .sthux rt ra rb, .stwu rt ra d, .stwux rt ra rb],
      InvalidExactly i (ra = 0#5) .storeUpdate) ∧
    InvalidExactly (.lmw rt ra d) (rt.toNat ≤ ra.toNat) .lmwRange ∧
    InvalidExactly (.lswi rt ra nb) (∃ k < (immediateCount nb + 3) / 4, ra = runReg rt k) .lswiRange ∧
    InvalidExactly (.lswx rt ra rb) (rt = ra ∨ rt = rb) .lswxTarget ∧
    ∀ i ∈ [Instr.lbz rt ra d, .lbzx rt ra rb, .lhz rt ra d, .lhzx rt ra rb, .lha rt ra d, .lhax rt ra rb, .lwz rt ra d,
        .lwzx rt ra rb, .stb rt ra d, .stbx rt ra rb, .sth rt ra d, .sthx rt ra rb, .stw rt ra d, .stwx rt ra rb,
        .lhbrx rt ra rb, .lwbrx rt ra rb, .sthbrx rt ra rb, .stwbrx rt ra rb, .stmw rt ra d,
        .stswi rt ra nb, .stswx rt ra rb], AlwaysValid i

/-- An invalid form records InvalidForm and changes nothing else (recording it in a next state is the model's choice,
logs 5 and 24). Derived: 30_encoding section 5, 60_exceptions sections 1, 2. -/
def Obligations.InvalidFormComputesNothing : Prop :=
  ∀ (i : Instr) (s : State) (reason : InvalidReason), invalidForm? i = some reason →
    exec i s = .next (recorded s i (.invalidForm reason))

/-- The operand (rA|0). Stated: R80. -/
def Obligations.BaseOperandIsZeroForFieldZero : Prop :=
  (∀ s : State, s.base 0#5 = 0#32) ∧ (∀ (s : State) (ra : Reg), ra ≠ 0#5 → s.base ra = s.x ra) ∧
    (∀ i : Instr, i.wf = true → ∀ ra, updateBase i = some ra → ra ≠ 0#5) ∧
    ∀ (s : State) (ra rb : Reg) (d : Imm), ra ≠ 0#5 → s.eaImmU ra d = s.eaImm ra d ∧ s.eaIdxU ra rb = s.eaIdx ra rb

/-- The three addressing modes: immediate index, index (sums modulo 2^32, the spec's decision D4, log 14) and register
indirect. Derived: 40_address_generation sections 1, 2, 3, 4, 5. -/
def Obligations.EffectiveAddressesAreSumsModulo : Prop :=
  ∀ (s : State) (ra rb : Reg) (d : Imm) (a : Word) (k : Nat),
    ((s.eaImm ra d).toNat : Int) = ((if ra = 0#5 then 0 else (s.x ra).toNat : Int) + d.toInt) % 2 ^ 32 ∧
    (s.base ra).toNat = (if ra = 0#5 then 0 else (s.x ra).toNat) ∧
    (s.eaIdx ra rb).toNat = ((if ra = 0#5 then 0 else (s.x ra).toNat) + (s.x rb).toNat) % 2 ^ 32 ∧
    ((s.eaImmU ra d).toNat : Int) = ((s.x ra).toNat + d.toInt) % 2 ^ 32 ∧
    (s.eaIdxU ra rb).toNat = ((s.x ra).toNat + (s.x rb).toNat) % 2 ^ 32 ∧
    (addrPlus a k).toNat = (a.toNat + k) % 2 ^ 32

/-- AlignTrap is false on aligned accesses and on bytes, true on a misaligned multiple (decision D5; its form as
launch rules is the model's choice, log 7). Derived: 20_memory section 3. -/
def Obligations.AlignTrapConstraints : Prop :=
  (∀ (s : State) (i : Instr) (a : Word) (n : Nat), a.toNat % n = 0 → s.alignTrap i a n = false) ∧
    (∀ (s : State) (i : Instr) (a : Word), s.alignTrap i a 1 = false) ∧
    ∀ (s : State) (rt ra : Reg) (d : Imm) (a : Word), a.toNat % 4 ≠ 0 →
      s.alignTrap (.lmw rt ra d) a 4 = true ∧ s.alignTrap (.stmw rt ra d) a 4 = true

/-- Admit is constant on each aligned 4096-byte page (Admit as two page lists is the model's choice, log 8). Derived:
20_memory section 5. -/
def Obligations.AdmissionIsPerPage : Prop :=
  ∀ (s : State) (kind : AccessKind) (a b : Word), a.toNat / 4096 = b.toNat / 4096 → s.admits kind a = s.admits kind b

/-- Mixed-width accesses see the byte array (R44, marked derived by the spec). Derived: 20_memory section 2. -/
def Obligations.MixedWidthAccessesSeeTheBytes : Prop :=
  ∀ (s : State) (a w : Word) (h g : Half),
    (∀ k < 4, (s.storeBytes a (wordBytes w)).byteAt (addrPlus a k) = w.extractLsb' (24 - 8 * k) 8) ∧
    (s.storeBytes a (wordBytes w)).halfAt a = w.extractLsb' 16 16 ∧
    (s.storeBytes a (wordBytes w)).halfAt (addrPlus a 2) = w.extractLsb' 0 16 ∧
    ((s.storeBytes a (halfBytes h)).storeBytes (addrPlus a 2) (halfBytes g)).wordAt a = h ++ g

/-- lbz and lbzx load a byte zero-extended (encodings D18, log 11; DSI as a next state, log 5, D9). Derived:
41_integer_load sections 1, 2, 30_encoding section 4, 60_exceptions sections 1, 2. -/
def Obligations.ByteLoadsZeroExtend : Prop :=
  ∀ (s : State) (rt ra rb : Reg) (d : Imm),
    LoadRule (dWord 0x88000000#32 rt ra d) (.lbz rt ra d) s (s.eaImm ra d) 1 rt (byteValue s (s.eaImm ra d)) ∧
    LoadRule (xWord 0x7C0000AE#32 rt ra rb) (.lbzx rt ra rb) s (s.eaIdx ra rb) 1 rt (byteValue s (s.eaIdx ra rb))

/-- lhz, lhzx, lha, lhax load a half word, zero- or sign-extended (encodings D18, log 11; traps as next states, logs 5
and 7, D9, D11). Derived: 41_integer_load sections 1, 3, 4, 30_encoding section 4, 60_exceptions sections 1, 2,
20_memory section 3. -/
def Obligations.HalfLoadsZeroAndSignExtend : Prop :=
  ∀ (s : State) (rt ra rb : Reg) (d : Imm),
    LoadRule (dWord 0xA0000000#32 rt ra d) (.lhz rt ra d) s (s.eaImm ra d) 2 rt (BitVec.ofNat 32 (halfNat s (s.eaImm ra d))) ∧
    LoadRule (xWord 0x7C00022E#32 rt ra rb) (.lhzx rt ra rb) s (s.eaIdx ra rb) 2 rt (BitVec.ofNat 32 (halfNat s (s.eaIdx ra rb))) ∧
    LoadRule (dWord 0xA8000000#32 rt ra d) (.lha rt ra d) s (s.eaImm ra d) 2 rt (BitVec.ofInt 32 (halfInt s (s.eaImm ra d))) ∧
    LoadRule (xWord 0x7C0002AE#32 rt ra rb) (.lhax rt ra rb) s (s.eaIdx ra rb) 2 rt (BitVec.ofInt 32 (halfInt s (s.eaIdx ra rb)))

/-- lwz and lwzx load a word (encodings D18, log 11; traps as next states, logs 5 and 7, D9, D11). Derived:
41_integer_load sections 1, 5, 30_encoding section 4, 60_exceptions sections 1, 2, 20_memory section 3. -/
def Obligations.WordLoads : Prop :=
  ∀ (s : State) (rt ra rb : Reg) (d : Imm),
    LoadRule (dWord 0x80000000#32 rt ra d) (.lwz rt ra d) s (s.eaImm ra d) 4 rt (wordValue s (s.eaImm ra d)) ∧
    LoadRule (xWord 0x7C00002E#32 rt ra rb) (.lwzx rt ra rb) s (s.eaIdx ra rb) 4 rt (wordValue s (s.eaIdx ra rb))

/-- lbzu and lbzux load a byte and place the EA in rA (encodings D18, log 11; invalid forms and DSI as next states,
logs 5, 24, D9, D10). Derived: 41_integer_load sections 1, 2, 30_encoding sections 4, 5, 60_exceptions sections 1, 2.
-/
def Obligations.ByteLoadsWithUpdate : Prop :=
  ∀ (s : State) (rt ra rb : Reg) (d : Imm),
    LoadUpdateRule (dWord 0x8C000000#32 rt ra d) (.lbzu rt ra d) s (s.eaImmU ra d) 1 rt ra (byteValue s (s.eaImmU ra d)) ∧
    LoadUpdateRule (xWord 0x7C0000EE#32 rt ra rb) (.lbzux rt ra rb) s (s.eaIdxU ra rb) 1 rt ra (byteValue s (s.eaIdxU ra rb))

/-- lhzu, lhzux, lhau, lhaux load a half word and put the EA in rA (encodings D18, log 11; invalid forms and traps as
next states, logs 5, 7, 24, D9 to D11). Derived: 41_integer_load sections 1, 3, 4, 30_encoding sections 4, 5,
60_exceptions sections 1, 2, 20_memory section 3. -/
def Obligations.HalfLoadsWithUpdate : Prop :=
  ∀ (s : State) (rt ra rb : Reg) (d : Imm),
    LoadUpdateRule (dWord 0xA4000000#32 rt ra d) (.lhzu rt ra d) s (s.eaImmU ra d) 2 rt ra (BitVec.ofNat 32 (halfNat s (s.eaImmU ra d))) ∧
    LoadUpdateRule (xWord 0x7C00026E#32 rt ra rb) (.lhzux rt ra rb) s (s.eaIdxU ra rb) 2 rt ra (BitVec.ofNat 32 (halfNat s (s.eaIdxU ra rb))) ∧
    LoadUpdateRule (dWord 0xAC000000#32 rt ra d) (.lhau rt ra d) s (s.eaImmU ra d) 2 rt ra (BitVec.ofInt 32 (halfInt s (s.eaImmU ra d))) ∧
    LoadUpdateRule (xWord 0x7C0002EE#32 rt ra rb) (.lhaux rt ra rb) s (s.eaIdxU ra rb) 2 rt ra (BitVec.ofInt 32 (halfInt s (s.eaIdxU ra rb)))

/-- lwzu and lwzux load a word and place the EA in rA (encodings D18, log 11; invalid forms and traps as next states,
logs 5, 7, 24, D9 to D11). Derived: 41_integer_load sections 1, 5, 30_encoding sections 4, 5, 60_exceptions sections
1, 2, 20_memory section 3. -/
def Obligations.WordLoadsWithUpdate : Prop :=
  ∀ (s : State) (rt ra rb : Reg) (d : Imm),
    LoadUpdateRule (dWord 0x84000000#32 rt ra d) (.lwzu rt ra d) s (s.eaImmU ra d) 4 rt ra (wordValue s (s.eaImmU ra d)) ∧
    LoadUpdateRule (xWord 0x7C00006E#32 rt ra rb) (.lwzux rt ra rb) s (s.eaIdxU ra rb) 4 rt ra (wordValue s (s.eaIdxU ra rb))

/-- stb and stbx store the low-order byte of rS (encodings D18, log 11; DSI as a next state, log 5, D9). Derived:
42_integer_store sections 1, 2, 30_encoding section 4, 60_exceptions sections 1, 2. -/
def Obligations.ByteStores : Prop :=
  ∀ (s : State) (rs ra rb : Reg) (d : Imm),
    StoreRule (dWord 0x98000000#32 rs ra d) (.stb rs ra d) s (s.eaImm ra d)
      [byteOf (s.x rs) 3] ∧
    StoreRule (xWord 0x7C0001AE#32 rs ra rb) (.stbx rs ra rb) s (s.eaIdx ra rb)
      [byteOf (s.x rs) 3]

/-- sth and sthx store the low-order half word of rS, big-endian (encodings D18, log 11; traps as next states, logs 5
and 7, D9, D11). Derived: 42_integer_store sections 1, 3, 30_encoding section 4, 60_exceptions sections 1, 2,
20_memory section 3. -/
def Obligations.HalfStores : Prop :=
  ∀ (s : State) (rs ra rb : Reg) (d : Imm),
    StoreRule (dWord 0xB0000000#32 rs ra d) (.sth rs ra d) s (s.eaImm ra d)
      [byteOf (s.x rs) 2, byteOf (s.x rs) 3] ∧
    StoreRule (xWord 0x7C00032E#32 rs ra rb) (.sthx rs ra rb) s (s.eaIdx ra rb)
      [byteOf (s.x rs) 2, byteOf (s.x rs) 3]

/-- stw and stwx store rS, big-endian (encodings D18, log 11; traps as next states, logs 5 and 7, D9, D11). Derived:
42_integer_store sections 1, 4, 30_encoding section 4, 60_exceptions sections 1, 2, 20_memory section 3. -/
def Obligations.WordStores : Prop :=
  ∀ (s : State) (rs ra rb : Reg) (d : Imm),
    StoreRule (dWord 0x90000000#32 rs ra d) (.stw rs ra d) s (s.eaImm ra d)
      [byteOf (s.x rs) 0, byteOf (s.x rs) 1, byteOf (s.x rs) 2, byteOf (s.x rs) 3] ∧
    StoreRule (xWord 0x7C00012E#32 rs ra rb) (.stwx rs ra rb) s (s.eaIdx ra rb)
      [byteOf (s.x rs) 0, byteOf (s.x rs) 1, byteOf (s.x rs) 2, byteOf (s.x rs) 3]

/-- stbu and stbux store a byte and place the EA in rA (encodings D18, log 11; invalid forms and DSI as next states,
logs 5, 24, D9, D10). Derived: 42_integer_store sections 1, 2, 30_encoding sections 4, 5, 60_exceptions sections 1, 2.
-/
def Obligations.ByteStoresWithUpdate : Prop :=
  ∀ (s : State) (rs ra rb : Reg) (d : Imm),
    StoreUpdateRule (dWord 0x9C000000#32 rs ra d) (.stbu rs ra d) s (s.eaImmU ra d) ra
      [byteOf (s.x rs) 3] ∧
    StoreUpdateRule (xWord 0x7C0001EE#32 rs ra rb) (.stbux rs ra rb) s (s.eaIdxU ra rb) ra
      [byteOf (s.x rs) 3]

/-- sthu and sthux store a half word and place the EA in rA (encodings D18, log 11; invalid forms and traps as next
states, logs 5, 7, 24, D9 to D11). Derived: 42_integer_store sections 1, 3, 30_encoding sections 4, 5, 60_exceptions
sections 1, 2, 20_memory section 3. -/
def Obligations.HalfStoresWithUpdate : Prop :=
  ∀ (s : State) (rs ra rb : Reg) (d : Imm),
    StoreUpdateRule (dWord 0xB4000000#32 rs ra d) (.sthu rs ra d) s (s.eaImmU ra d) ra
      [byteOf (s.x rs) 2, byteOf (s.x rs) 3] ∧
    StoreUpdateRule (xWord 0x7C00036E#32 rs ra rb) (.sthux rs ra rb) s (s.eaIdxU ra rb) ra
      [byteOf (s.x rs) 2, byteOf (s.x rs) 3]

/-- stwu and stwux store a word and place the EA in rA (encodings D18, log 11; invalid forms and traps as next states,
logs 5, 7, 24, D9 to D11). Derived: 42_integer_store sections 1, 4, 30_encoding sections 4, 5, 60_exceptions sections
1, 2, 20_memory section 3. -/
def Obligations.WordStoresWithUpdate : Prop :=
  ∀ (s : State) (rs ra rb : Reg) (d : Imm),
    StoreUpdateRule (dWord 0x94000000#32 rs ra d) (.stwu rs ra d) s (s.eaImmU ra d) ra
      [byteOf (s.x rs) 0, byteOf (s.x rs) 1, byteOf (s.x rs) 2, byteOf (s.x rs) 3] ∧
    StoreUpdateRule (xWord 0x7C00016E#32 rs ra rb) (.stwux rs ra rb) s (s.eaIdxU ra rb) ra
      [byteOf (s.x rs) 0, byteOf (s.x rs) 1, byteOf (s.x rs) 2, byteOf (s.x rs) 3]

/-- lhbrx (as C5 reads it) and lwbrx load with the bytes reversed (encodings D18, log 11; traps as next states, logs 5
and 7, D9, D11). Derived: 43_byte_reverse sections 1, 2, 90_conflicts C5, 30_encoding section 4, 60_exceptions
sections 1, 2, 20_memory section 3. -/
def Obligations.ByteReverseLoads : Prop :=
  ∀ (s : State) (rt ra rb : Reg),
    LoadRule (xWord 0x7C00062C#32 rt ra rb) (.lhbrx rt ra rb) s (s.eaIdx ra rb) 2 rt
      (0#16 ++ s.byteAt (addrPlus (s.eaIdx ra rb) 1) ++ s.byteAt (s.eaIdx ra rb)) ∧
    LoadRule (xWord 0x7C00042C#32 rt ra rb) (.lwbrx rt ra rb) s (s.eaIdx ra rb) 4 rt
      (s.byteAt (addrPlus (s.eaIdx ra rb) 3) ++ s.byteAt (addrPlus (s.eaIdx ra rb) 2) ++
        s.byteAt (addrPlus (s.eaIdx ra rb) 1) ++ s.byteAt (s.eaIdx ra rb))

/-- sthbrx (as C5 reads it) and stwbrx store with the bytes reversed (encodings D18, log 11; traps as next states,
logs 5 and 7, D9, D11). Derived: 43_byte_reverse sections 1, 2, 90_conflicts C5, 30_encoding section 4, 60_exceptions
sections 1, 2, 20_memory section 3. -/
def Obligations.ByteReverseStores : Prop :=
  ∀ (s : State) (rs ra rb : Reg),
    StoreRule (xWord 0x7C00072C#32 rs ra rb) (.sthbrx rs ra rb) s (s.eaIdx ra rb)
      [byteOf (s.x rs) 3, byteOf (s.x rs) 2] ∧
    StoreRule (xWord 0x7C00052C#32 rs ra rb) (.stwbrx rs ra rb) s (s.eaIdx ra rb)
      [byteOf (s.x rs) 3, byteOf (s.x rs) 2, byteOf (s.x rs) 1, byteOf (s.x rs) 0]

/-- Byte-reverse stores and loads undo each other (R135, marked derived by the spec). Derived: 43_byte_reverse section
3. -/
def Obligations.ByteReverseRoundTrips : Prop :=
  ∀ (s : State) (rs rt ra rb : Reg),
    (Admitted s .store (s.eaIdx ra rb) 4 → Admitted s .load (s.eaIdx ra rb) 4 →
      (s.alignTrap (.stwbrx rs ra rb) (s.eaIdx ra rb) 4 = false → s.alignTrap (.lwbrx rt ra rb) (s.eaIdx ra rb) 4 = false →
        ∃ t u, exec (.stwbrx rs ra rb) s = .next t ∧ exec (.lwbrx rt ra rb) t = .next u ∧ u.x rt = s.x rs) ∧
      (s.alignTrap (.stwbrx rs ra rb) (s.eaIdx ra rb) 4 = false → s.alignTrap (.lwzx rt ra rb) (s.eaIdx ra rb) 4 = false →
        ∃ t u, exec (.stwbrx rs ra rb) s = .next t ∧ exec (.lwzx rt ra rb) t = .next u ∧
          ∀ k < 4, byteOf (u.x rt) k = byteOf (s.x rs) (3 - k)) ∧
      (s.alignTrap (.stwx rs ra rb) (s.eaIdx ra rb) 4 = false → s.alignTrap (.lwbrx rt ra rb) (s.eaIdx ra rb) 4 = false →
        ∃ t u, exec (.stwx rs ra rb) s = .next t ∧ exec (.lwbrx rt ra rb) t = .next u ∧
          ∀ k < 4, byteOf (u.x rt) k = byteOf (s.x rs) (3 - k))) ∧
    (Admitted s .store (s.eaIdx ra rb) 2 → Admitted s .load (s.eaIdx ra rb) 2 →
      (s.alignTrap (.sthbrx rs ra rb) (s.eaIdx ra rb) 2 = false → s.alignTrap (.lhbrx rt ra rb) (s.eaIdx ra rb) 2 = false →
        ∃ t u, exec (.sthbrx rs ra rb) s = .next t ∧ exec (.lhbrx rt ra rb) t = .next u ∧
          u.x rt = 0#16 ++ (s.x rs).extractLsb' 0 16) ∧
      (s.alignTrap (.sthbrx rs ra rb) (s.eaIdx ra rb) 2 = false → s.alignTrap (.lhzx rt ra rb) (s.eaIdx ra rb) 2 = false →
        ∃ t u, exec (.sthbrx rs ra rb) s = .next t ∧ exec (.lhzx rt ra rb) t = .next u ∧
          u.x rt = 0#16 ++ byteOf (s.x rs) 3 ++ byteOf (s.x rs) 2) ∧
      (s.alignTrap (.sthx rs ra rb) (s.eaIdx ra rb) 2 = false → s.alignTrap (.lhbrx rt ra rb) (s.eaIdx ra rb) 2 = false →
        ∃ t u, exec (.sthx rs ra rb) s = .next t ∧ exec (.lhbrx rt ra rb) t = .next u ∧
          u.x rt = 0#16 ++ byteOf (s.x rs) 3 ++ byteOf (s.x rs) 2))

/-- lmw loads n = 32 - rD words into GPRs rD to 31 (the data movement is the spec's completion, D17, log 12; encoding
D18, log 11). Derived: 44_load_store_multiple sections 1, 2. -/
def Obligations.LoadMultipleLoadsTheBlock : Prop :=
  ∀ (s : State) (rt ra : Reg) (d : Imm), decode (dWord 0xB8000000#32 rt ra d) = .ok (.lmw rt ra d) ∧
    (ra.toNat < rt.toNat → (s.eaImm ra d).toNat % 4 = 0 →
      Admitted s .load (s.eaImm ra d) (4 * (32 - rt.toNat)) →
      ∃ t, exec (.lmw rt ra d) s = .next t ∧
        (∀ i < 32 - rt.toNat, t.x (runReg rt i) = wordValue s (addrPlus (s.eaImm ra d) (4 * i))) ∧
        (∀ r : Reg, r.toNat < rt.toNat → t.x r = s.x r) ∧ MemoryKept s t ∧ Completed s t)

/-- stmw stores GPRs rS to 31 as n = 32 - rS words (the data movement is the spec's completion, D17, log 12; encoding
D18, log 11). Derived: 44_load_store_multiple sections 1, 2. -/
def Obligations.StoreMultipleStoresTheBlock : Prop :=
  ∀ (s : State) (rs ra : Reg) (d : Imm), decode (dWord 0xBC000000#32 rs ra d) = .ok (.stmw rs ra d) ∧
    ((s.eaImm ra d).toNat % 4 = 0 → Admitted s .store (s.eaImm ra d) (4 * (32 - rs.toNat)) →
      ∃ t, exec (.stmw rs ra d) s = .next t ∧ Stored s t (s.eaImm ra d) (multipleBytes s rs (32 - rs.toNat)) ∧
        (∀ r, t.x r = s.x r) ∧ Completed s t)

/-- lmw, stmw at an EA no multiple of 4 raise Alignment before any word moves (decision D5, log 7; D11, log 20;
recording in a next state is the model's, log 5). Derived: 44_load_store_multiple section 3, 20_memory section 3,
60_exceptions sections 1, 4. -/
def Obligations.MisalignedMultipleTakesAlignment : Prop :=
  ∀ (s : State) (rt ra : Reg) (d : Imm), (s.eaImm ra d).toNat % 4 ≠ 0 →
    (ra.toNat < rt.toNat → s.alignBeforeDSI = true ∨ Admitted s .load (s.eaImm ra d) 4 →
      exec (.lmw rt ra d) s = .next (recorded s (.lmw rt ra d) (.alignment (s.eaImm ra d) .load))) ∧
    (s.alignBeforeDSI = true ∨ Admitted s .store (s.eaImm ra d) 4 →
      exec (.stmw rt ra d) s = .next (recorded s (.stmw rt ra d) (.alignment (s.eaImm ra d) .store)))

/-- lmw that takes a DSI leaves each admitted word loaded or not, and nothing else (which words were loaded is free,
D9, log 10; AlignBeforeDSI D11, log 20). Derived: 44_load_store_multiple section 3, 20_memory section 3. -/
def Obligations.LoadMultipleInterruptedByDsi : Prop :=
  ∀ (s : State) (rt ra : Reg) (d : Imm) (k : Nat), ra.toNat < rt.toNat → PastAlignment s (s.eaImm ra d) k →
    RejectedAt s .load (s.eaImm ra d) (4 * (32 - rt.toNat)) k →
    ∃ (t : State) (done : Nat → Bool), exec (.lmw rt ra d) s = .next t ∧
      Interrupted s t (.lmw rt ra d) (addrPlus (s.eaImm ra d) k) .load ∧
      (∀ j < 32 - rt.toNat, done j = true → Admitted s .load (addrPlus (s.eaImm ra d) (4 * j)) 4) ∧
      (∀ j < 32 - rt.toNat, t.x (runReg rt j) =
        if done j then wordValue s (addrPlus (s.eaImm ra d) (4 * j)) else s.x (runReg rt j)) ∧
      (∀ r : Reg, r.toNat < rt.toNat → t.x r = s.x r) ∧ MemoryKept s t

/-- stmw that takes a DSI leaves each admitted word stored or not, and nothing else (which words were stored is free,
D9, log 10; AlignBeforeDSI D11, log 20). Derived: 44_load_store_multiple section 3, 20_memory sections 2, 3, 9. -/
def Obligations.StoreMultipleInterruptedByDsi : Prop :=
  ∀ (s : State) (rs ra : Reg) (d : Imm) (k : Nat), PastAlignment s (s.eaImm ra d) k →
    RejectedAt s .store (s.eaImm ra d) (4 * (32 - rs.toNat)) k →
    ∃ (t : State) (done : Nat → Bool), exec (.stmw rs ra d) s = .next t ∧
      Interrupted s t (.stmw rs ra d) (addrPlus (s.eaImm ra d) k) .store ∧
      (∀ j < 32 - rs.toNat, done j = true → Admitted s .store (addrPlus (s.eaImm ra d) (4 * j)) 4) ∧
      (∀ j < 32 - rs.toNat, wordValue t (addrPlus (s.eaImm ra d) (4 * j)) =
        if done j then s.x (runReg rs j) else wordValue s (addrPlus (s.eaImm ra d) (4 * j))) ∧
      (∀ a, (∀ b < 4 * (32 - rs.toNat), a ≠ addrPlus (s.eaImm ra d) b) → t.byteAt a = s.byteAt a) ∧
      (∀ c, c ∈ t.dirty ↔ c ∈ s.dirty ∨ ∃ j < 32 - rs.toNat, done j = true ∧ ∃ b < 4,
        s.inCode (addrPlus (s.eaImm ra d) (4 * j + b)) = true ∧ c = (addrPlus (s.eaImm ra d) (4 * j + b)).toNat) ∧
      ∀ r, t.x r = s.x r

/-- stmw then lmw with the same operands leaves every register as it was (the data movement is the spec's completion,
D17, log 12). Derived: 95_test_vectors section 3, 44_load_store_multiple section 2. -/
def Obligations.StoreThenLoadMultipleRestores : Prop :=
  ∀ (s : State) (rs ra : Reg) (d : Imm), ra.toNat < rs.toNat → (s.eaImm ra d).toNat % 4 = 0 →
    Admitted s .store (s.eaImm ra d) (4 * (32 - rs.toNat)) → Admitted s .load (s.eaImm ra d) (4 * (32 - rs.toNat)) →
    ∃ t u, exec (.stmw rs ra d) s = .next t ∧ exec (.lmw rs ra d) t = .next u ∧ (∀ r, u.x r = s.x r) ∧
      u.pc = s.pc + 8#32

/-- How many bytes a string instruction moves (R151, marked general knowledge by the spec, D19, log 12). Derived:
45_load_store_string section 2. -/
def Obligations.StringCounts : Prop :=
  (∀ nb : Count, nb ≠ 0#5 → immediateCount nb = nb.toNat) ∧ immediateCount 0#5 = 32 ∧
    (∀ nb : Count, 1 ≤ immediateCount nb ∧ immediateCount nb ≤ 32) ∧
    ∀ s : State, s.xerByteCount = s.xer.toNat % 128 ∧ s.xerByteCount ≤ 127

/-- lswi loads its bytes into the run of registers (the data movement is the spec's completion, D17, log 12; encoding
D18, log 11). Derived: 45_load_store_string sections 2, 3. -/
def Obligations.LoadStringImmediate : Prop :=
  ∀ (s : State) (rt ra : Reg) (nb : Count), decode (xWord 0x7C0004AA#32 rt ra nb) = .ok (.lswi rt ra nb) ∧
    ((∀ k < (immediateCount nb + 3) / 4, ra ≠ runReg rt k) → Admitted s .load (s.base ra) (immediateCount nb) →
      ∃ t, exec (.lswi rt ra nb) s = .next t ∧ StringLoaded s t rt (s.base ra) (immediateCount nb) ∧ MemoryKept s t ∧
        Completed s t)

/-- lswx loads XER_BC bytes into the run of registers (data movement D17, byte count D19, log 12; encoding D18, log
11). Derived: 45_load_store_string sections 2, 3. -/
def Obligations.LoadStringIndexed : Prop :=
  ∀ (s : State) (rt ra rb : Reg), decode (xWord 0x7C00042A#32 rt ra rb) = .ok (.lswx rt ra rb) ∧
    (s.xerByteCount ≠ 0 → (∀ k < (s.xerByteCount + 3) / 4, ra ≠ runReg rt k ∧ rb ≠ runReg rt k) →
      Admitted s .load (s.eaIdx ra rb) s.xerByteCount →
      ∃ t, exec (.lswx rt ra rb) s = .next t ∧ StringLoaded s t rt (s.eaIdx ra rb) s.xerByteCount ∧ MemoryKept s t ∧
        Completed s t)

/-- lswx with a byte count of zero completes with rD a free value and no memory access (the free value is the model's
form of U6, log 9). Derived: 45_load_store_string section 4, 93_implementation_defined U6. -/
def Obligations.LoadStringIndexedCountZero : Prop :=
  ∀ (s : State) (rt ra rb : Reg), s.xerByteCount = 0 → rt ≠ ra → rt ≠ rb →
    ∃ t, exec (.lswx rt ra rb) s = .next t ∧ t.x rt = Config.freeWord s.freeCount ∧ (∀ r, r ≠ rt → t.x r = s.x r) ∧
      MemoryKept s t ∧ t.pc = s.pc + 4#32 ∧ t.faultRecord = s.faultRecord ∧ t.cr = s.cr ∧ t.xer = s.xer ∧
      t.freeCount = s.freeCount + 1 ∧ LaunchKept s t

/-- lswx with rA or rB in the range loaded records Refused before any access (the spec's decision D20, log 27).
Derived: 45_load_store_string section 4, 60_exceptions section 4. -/
def Obligations.LoadStringIndexedBaseInRunIsRefused : Prop :=
  ∀ (s : State) (rt ra rb : Reg) (k : Nat), rt ≠ ra → rt ≠ rb → s.xerByteCount ≠ 0 →
    k < (s.xerByteCount + 3) / 4 → ra = runReg rt k ∨ rb = runReg rt k →
    exec (.lswx rt ra rb) s = .next (recorded s (.lswx rt ra rb) (.refused .lswxRange))

/-- stswi stores the bytes of the run of registers (the data movement is the spec's completion, D17, log 12; encoding
D18, log 11). Derived: 45_load_store_string sections 2, 3. -/
def Obligations.StoreStringImmediate : Prop :=
  ∀ (s : State) (rs ra : Reg) (nb : Count), decode (xWord 0x7C0005AA#32 rs ra nb) = .ok (.stswi rs ra nb) ∧
    (Admitted s .store (s.base ra) (immediateCount nb) →
      ∃ t, exec (.stswi rs ra nb) s = .next t ∧ Stored s t (s.base ra) (stringBytes s rs (immediateCount nb)) ∧
        (∀ r, t.x r = s.x r) ∧ Completed s t)

/-- stswx stores XER_BC bytes of the run of registers (data movement D17, byte count D19, log 12; encoding D18, log
11). Derived: 45_load_store_string sections 2, 3. -/
def Obligations.StoreStringIndexed : Prop :=
  ∀ (s : State) (rs ra rb : Reg), decode (xWord 0x7C00052A#32 rs ra rb) = .ok (.stswx rs ra rb) ∧
    (Admitted s .store (s.eaIdx ra rb) s.xerByteCount →
      ∃ t, exec (.stswx rs ra rb) s = .next t ∧ Stored s t (s.eaIdx ra rb) (stringBytes s rs s.xerByteCount) ∧
        (∀ r, t.x r = s.x r) ∧ Completed s t)

/-- lswi and lswx that take a DSI leave the run partly loaded and nothing else changed (which bytes were loaded is a
free choice, D9, logs 10 and 19). Derived: 45_load_store_string section 4. -/
def Obligations.LoadStringsInterruptedByDsi : Prop :=
  ∀ (s : State) (rt ra rb : Reg) (nb : Count) (k : Nat),
    ((∀ q < (immediateCount nb + 3) / 4, ra ≠ runReg rt q) → RejectedAt s .load (s.base ra) (immediateCount nb) k →
      ∃ t, exec (.lswi rt ra nb) s = .next t ∧ Interrupted s t (.lswi rt ra nb) (addrPlus (s.base ra) k) .load ∧
        PartlyLoaded s t rt (s.base ra) (immediateCount nb) ∧ MemoryKept s t) ∧
    (s.xerByteCount ≠ 0 → (∀ q < (s.xerByteCount + 3) / 4, ra ≠ runReg rt q ∧ rb ≠ runReg rt q) →
      RejectedAt s .load (s.eaIdx ra rb) s.xerByteCount k →
      ∃ t, exec (.lswx rt ra rb) s = .next t ∧ Interrupted s t (.lswx rt ra rb) (addrPlus (s.eaIdx ra rb) k) .load ∧
        PartlyLoaded s t rt (s.eaIdx ra rb) s.xerByteCount ∧ MemoryKept s t)

/-- stswi and stswx that take a DSI leave each admitted byte stored or not, and nothing else (which bytes were stored
is a free choice, D9, log 10). Derived: 45_load_store_string section 4, 20_memory sections 2, 9. -/
def Obligations.StoreStringsInterruptedByDsi : Prop :=
  ∀ (s : State) (rs ra rb : Reg) (nb : Count) (k : Nat),
    (RejectedAt s .store (s.base ra) (immediateCount nb) k →
      ∃ t, exec (.stswi rs ra nb) s = .next t ∧ Interrupted s t (.stswi rs ra nb) (addrPlus (s.base ra) k) .store ∧
        PartlyStored s t (s.base ra) (stringBytes s rs (immediateCount nb)) ∧ ∀ r, t.x r = s.x r) ∧
    (RejectedAt s .store (s.eaIdx ra rb) s.xerByteCount k →
      ∃ t, exec (.stswx rs ra rb) s = .next t ∧ Interrupted s t (.stswx rs ra rb) (addrPlus (s.eaIdx ra rb) k) .store ∧
        PartlyStored s t (s.eaIdx ra rb) (stringBytes s rs s.xerByteCount) ∧ ∀ r, t.x r = s.x r)

/-- lswi then stswi copies the block (the data movement is the spec's completion, D17, log 12). Derived:
95_test_vectors section 3, 45_load_store_string section 3. -/
def Obligations.LoadStringThenStoreStringCopies : Prop :=
  ∀ (s : State) (rs ra rb : Reg) (nb : Count),
    (∀ k < (immediateCount nb + 3) / 4, ra ≠ runReg rs k ∧ rb ≠ runReg rs k) →
    Admitted s .load (s.base rb) (immediateCount nb) → Admitted s .store (s.base ra) (immediateCount nb) →
    (∀ j < immediateCount nb, ∀ k < immediateCount nb, addrPlus (s.base rb) j ≠ addrPlus (s.base ra) k) →
    ∃ t u, exec (.lswi rs rb nb) s = .next t ∧ exec (.stswi rs ra nb) t = .next u ∧
      (∀ j < immediateCount nb, u.byteAt (addrPlus (s.base ra) j) = s.byteAt (addrPlus (s.base rb) j)) ∧
      ∀ a, (∀ k < immediateCount nb, a ≠ addrPlus (s.base ra) k) → u.byteAt a = s.byteAt a

/-- Every instruction answers a next state from every state (exceptions as next states are the model's choice, log 5).
Derived: 60_exceptions section 1, 00_scope section 3. -/
def Obligations.NoInstructionIsRefused : Prop :=
  ∀ (i : Instr) (s : State), ∃ t, exec i s = .next t

/-- An instruction completes with pc + 4, or records a fault and leaves the pc (exceptions as next states are the
model's choice, log 5). Derived: 10_state section 2, 60_exceptions section 1. -/
def Obligations.PcAdvancesByFourOrFaultIsRecorded : Prop :=
  ∀ (i : Instr) (s t : State), s.faultRecord = none → exec i s = .next t →
    (t.faultRecord = none ∧ t.pc = s.pc + 4#32) ∨
    ∃ e, t.faultRecord = some { kind := e, pc := s.pc, word := encode i } ∧ t.pc = s.pc

/-- An instruction records only the events the table of R174 gives it. Derived: 60_exceptions section 2. -/
def Obligations.EventsAreThoseOfTheTable : Prop :=
  ∀ (i : Instr) (s t : State) (r : FaultRecord), s.faultRecord = none → exec i s = .next t → t.faultRecord = some r →
    mayRaise i r.kind

/-- No instruction changes the CR, the XER (carried whole, log 16) or the launch parameters (their form is the model's
choice, logs 7, 8, 17). Derived: 10_state section 3, 00_scope section 4, 70_reset_and_hazards section 1,
95_test_vectors section 3. -/
def Obligations.SpecialRegistersAreNeverWritten : Prop :=
  ∀ (i : Instr) (s t : State), exec i s = .next t → t.cr = s.cr ∧ t.xer = s.xer ∧ LaunchKept s t

/-- No instruction changes a GPR other than its rD or run and, in update forms, its rA. Derived: 10_state section 1,
95_test_vectors section 3. -/
def Obligations.OnlyDestinationRegistersChange : Prop :=
  ∀ (i : Instr) (s t : State) (r : Reg), exec i s = .next t → ¬ mayWrite s i r → t.x r = s.x r

/-- A load writes no memory. Derived: 41_integer_load section 1, 43_byte_reverse sections 1, 2, 44_load_store_multiple
sections 2, 3, 45_load_store_string sections 3, 4. -/
def Obligations.LoadsLeaveMemoryAlone : Prop :=
  ∀ (i : Instr) (s t : State), isStore i = false → exec i s = .next t → t.mem = s.mem ∧ t.dirty = s.dirty

/-- Dirty never loses a byte, gains only CodeRegion bytes of the running store's operand, all of them if it completes,
and every CodeRegion byte that changed. Derived: 10_state section 7, 20_memory sections 2, 9. -/
def Obligations.DirtyIsExactlyTheStoredCode : Prop :=
  ∀ s t : State, step s = .next t →
    (∀ a ∈ s.dirty, a ∈ t.dirty) ∧
    (∀ a ∈ t.dirty, a ∈ s.dirty ∨ ∃ (i : Instr) (k : Nat), decode (wordValue s s.pc) = .ok i ∧ isStore i = true ∧
      k < (storeOperand s i).2 ∧ s.inCode (addrPlus (storeOperand s i).1 k) = true ∧
      a = (addrPlus (storeOperand s i).1 k).toNat) ∧
    (∀ (i : Instr) (k : Nat), t.faultRecord = none → decode (wordValue s s.pc) = .ok i → k < (storeOperand s i).2 →
      s.inCode (addrPlus (storeOperand s i).1 k) = true → (addrPlus (storeOperand s i).1 k).toNat ∈ t.dirty) ∧
    ∀ a : Word, t.byteAt a ≠ s.byteAt a → s.inCode a = true → a.toNat ∈ t.dirty

/-- lbzu has the effect of lbz followed by the addition to rA. Derived: 70_reset_and_hazards section 3. -/
def Obligations.UpdateLoadIsLoadThenAdd : Prop :=
  ∀ (s : State) (rt ra rb : Reg) (d : Imm), ra ≠ 0#5 → ra ≠ rt →
    (s.admits .load (s.eaImm ra d) = true → ∃ t, exec (.lbz rt ra d) s = .next t ∧
      exec (.lbzu rt ra d) s = .next (t.setX ra (s.x ra + d.signExtend 32))) ∧
    (s.admits .load (s.eaIdx ra rb) = true → ∃ t, exec (.lbzx rt ra rb) s = .next t ∧
      exec (.lbzux rt ra rb) s = .next (t.setX ra (s.x ra + s.x rb)))

/-- A step runs the instruction that the word at the pc decodes to. Derived: 20_memory sections 2, 9, 60_exceptions
section 4. -/
def Obligations.StepRunsTheDecodedInstruction : Prop :=
  ∀ (s : State) (i : Instr), s.faultRecord = none → s.isInsnAddr s.pc = true →
    (∀ k < 4, (addrPlus s.pc k).toNat ∉ s.dirty) → decode (wordValue s s.pc) = .ok i → step s = exec i s

/-- A step at a word that does not decode records NotInScope or InvalidForm (recording it in a next state is the
model's choice, log 5). Derived: 30_encoding section 5, 60_exceptions sections 1, 4. -/
def Obligations.StepRecordsUndecodedWords : Prop :=
  ∀ s : State, s.faultRecord = none → s.isInsnAddr s.pc = true → (∀ k < 4, (addrPlus s.pc k).toNat ∉ s.dirty) →
    (decodeChecked (wordValue s s.pc) = .error .notInScope →
      step s = .next { s with
        faultRecord := some { kind := .notInScope, pc := s.pc, word := wordValue s s.pc } }) ∧
    ∀ reason, decodeChecked (wordValue s s.pc) = .error (.invalidForm reason) →
      step s = .next { s with
        faultRecord := some { kind := .invalidForm reason, pc := s.pc, word := wordValue s s.pc } }

/-- A fetch of a word with a byte in Dirty records StaleFetch (the spec's decision D13; the word of the record is a
free value, log 18). Derived: 20_memory section 9, 60_exceptions section 4. -/
def Obligations.StaleFetchIsRecorded : Prop :=
  ∀ (s : State) (k : Nat), s.faultRecord = none → s.isInsnAddr s.pc = true → k < 4 →
    (addrPlus s.pc k).toNat ∈ s.dirty →
    step s = .next { s with
      faultRecord := some { kind := .staleFetch s.pc, pc := s.pc, word := Config.freeWord s.freeCount }
      freeCount := s.freeCount + 1 }

/-- A state with a fault record takes no further step, and a step never clears one (the fault outcome of such a step
is the model's choice, log 5). Derived: 60_exceptions section 1, 10_state section 7. -/
def Obligations.FaultRecordStopsTheMachine : Prop :=
  (∀ (s : State) (r : FaultRecord), s.faultRecord = some r → step s = .fault (.recorded r)) ∧
    (∀ s t : State, step s = .next t → s.faultRecord = none) ∧
    ∀ (s : State) (f : Fault), step s = .fault f → ∃ r, s.faultRecord = some r ∧ f = .recorded r

/-- The run ends, with no fault, exactly where the pc is no instruction of CodeRegion (the two refusals are the
model's choice, log 6). Derived: 10_state section 2. -/
def Obligations.RunEndsOutsideTheProgramText : Prop :=
  ∀ s : State, s.faultRecord = none →
    (step s = .refused .programEnded ↔ s.isInsnAddr s.pc = false ∧ s.textEnd = some s.pc) ∧
    (step s = .refused .outsideProgramText ↔ s.isInsnAddr s.pc = false ∧ s.textEnd ≠ some s.pc) ∧
    ((∃ t, step s = .next t) ↔ s.isInsnAddr s.pc = true)

/-- Every step keeps the machine's invariant (the canonical form of memory is the model's, log 2). Derived: 10_state
sections 2, 6, 7, 20_memory section 1. -/
def Obligations.StepKeepsTheInvariant : Prop :=
  ∀ s t : State, s.inv = true → step s = .next t → t.inv = true

/-- The state after reset has the invariant and an empty Dirty and fault record (its pc and memory are the model's
choice, logs 1 and 2). Derived: 10_state section 8. -/
def Obligations.ResetHasTheInvariant : Prop :=
  State.reset.inv = true ∧ State.reset.dirty = [] ∧ State.reset.faultRecord = none

/-- An instruction placed at the pc is what the next step runs (the placing stands for the load of a program, log 4).
Derived: 70_reset_and_hazards section 1, 20_memory section 2. -/
def Obligations.PlacedInstructionRunsNext : Prop :=
  ∀ (s : State) (w : Word) (i : Instr), decode w = .ok i →
    step (s.withFetchWord 32 w.toNat) = exec i (s.withFetchWord 32 w.toNat) ∧
    (∀ r, (s.withFetchWord 32 w.toNat).x r = s.x r) ∧ (s.withFetchWord 32 w.toNat).pc = s.pc ∧
    (s.withFetchWord 32 w.toNat).xer = s.xer ∧ (s.withFetchWord 32 w.toNat).cr = s.cr

/-- The immediate d is field D sign extended, a byte offset added to the base unscaled. Stated: R64. -/
def Obligations.ImmediateIsSignExtended : Prop :=
  ∀ d : Imm, (sextImm d).toInt = d.toInt ∧ -32768 ≤ (sextImm d).toInt ∧ (sextImm d).toInt ≤ 32767 ∧
    (∀ k < 32, (sextImm d).getLsbD k = if k < 16 then d.getLsbD k else d.getLsbD 15) ∧
    ∀ (s : State) (ra : Reg),
      (0 ≤ (s.base ra).toNat + d.toInt → (s.base ra).toNat + d.toInt < 2 ^ 32 →
        ((s.eaImm ra d).toNat : Int) = (s.base ra).toNat + d.toInt) ∧
      (0 ≤ (s.x ra).toNat + d.toInt → (s.x ra).toNat + d.toInt < 2 ^ 32 →
        ((s.eaImmU ra d).toNat : Int) = (s.x ra).toNat + d.toInt)
end

