-- ==== Sys2Proof/Laws/Encoding.lean ====
section
/-! SUPPORT. The fields of the two instruction formats (spec 30_encoding R61 to R63): what each field of a D-form or
X-form word reads as. -/

namespace Sys2Proof

@[simp] theorem fieldOpcd_encodeD (op : Nat) (rt ra : Reg) (d : Imm) : fieldOpcd (encodeD op rt ra d) = op % 64 := by
  have : (encodeD op rt ra d).extractLsb' 26 6 = BitVec.ofNat 6 op := by
    unfold encodeD
    ext i hi
    simp only [BitVec.getElem_extractLsb', BitVec.getLsbD_append]
    have h1 : ¬ (26 + i < 16) := by omega
    have h2 : ¬ (26 + i - 16 < 5) := by omega
    have h3 : ¬ (26 + i - 16 - 5 < 5) := by omega
    have h4 : 26 + i - 16 - 5 - 5 = i := by omega
    simp [h1, h2, h3, h4, hi, BitVec.getLsbD_eq_getElem]
  simp [fieldOpcd, this]

@[simp] theorem fieldRT_encodeD (op : Nat) (rt ra : Reg) (d : Imm) : fieldRT (encodeD op rt ra d) = rt := by
  unfold fieldRT encodeD
  ext i hi
  simp only [BitVec.getElem_extractLsb', BitVec.getLsbD_append]
  have h1 : ¬ (21 + i < 16) := by omega
  have h2 : ¬ (21 + i - 16 < 5) := by omega
  have h3 : 21 + i - 16 - 5 < 5 := by omega
  have h4 : 21 + i - 16 - 5 = i := by omega
  simp [h1, h2, h4, hi, BitVec.getLsbD_eq_getElem]

@[simp] theorem fieldRA_encodeD (op : Nat) (rt ra : Reg) (d : Imm) : fieldRA (encodeD op rt ra d) = ra := by
  unfold fieldRA encodeD
  ext i hi
  simp only [BitVec.getElem_extractLsb', BitVec.getLsbD_append]
  have h1 : ¬ (16 + i < 16) := by omega
  have h2 : 16 + i - 16 = i := by omega
  simp [h2, hi, BitVec.getLsbD_eq_getElem]

@[simp] theorem fieldD_encodeD (op : Nat) (rt ra : Reg) (d : Imm) : fieldD (encodeD op rt ra d) = d := by
  unfold fieldD encodeD
  ext i hi
  simp only [BitVec.getElem_extractLsb', BitVec.getLsbD_append, Nat.zero_add, hi, if_true]
  rw [BitVec.getLsbD_eq_getElem hi]

@[simp] theorem fieldOpcd_encodeX (xo : Nat) (rt ra rb : Reg) : fieldOpcd (encodeX xo rt ra rb) = 31 := by
  have : (encodeX xo rt ra rb).extractLsb' 26 6 = 31#6 := by
    unfold encodeX
    ext i hi
    simp only [BitVec.getElem_extractLsb', BitVec.getLsbD_append]
    have h1 : ¬ (26 + i < 1) := by omega
    have h2 : ¬ (26 + i - 1 < 10) := by omega
    have h3 : ¬ (26 + i - 1 - 10 < 5) := by omega
    have h4 : ¬ (26 + i - 1 - 10 - 5 < 5) := by omega
    have h5 : ¬ (26 + i - 1 - 10 - 5 - 5 < 5) := by omega
    have h6 : 26 + i - 1 - 10 - 5 - 5 - 5 = i := by omega
    simp only [h1, h2, h3, h4, h5, h6, if_false]
    rw [BitVec.getLsbD_eq_getElem hi]
  simp [fieldOpcd, this]

@[simp] theorem fieldRT_encodeX (xo : Nat) (rt ra rb : Reg) : fieldRT (encodeX xo rt ra rb) = rt := by
  unfold fieldRT encodeX
  ext i hi
  simp only [BitVec.getElem_extractLsb', BitVec.getLsbD_append]
  have h1 : ¬ (21 + i < 1) := by omega
  have h2 : ¬ (21 + i - 1 < 10) := by omega
  have h3 : ¬ (21 + i - 1 - 10 < 5) := by omega
  have h4 : ¬ (21 + i - 1 - 10 - 5 < 5) := by omega
  have h5 : 21 + i - 1 - 10 - 5 - 5 < 5 := by omega
  have h6 : 21 + i - 1 - 10 - 5 - 5 = i := by omega
  simp only [h1, h2, h3, h4, h6, hi, if_false, if_true]
  rw [BitVec.getLsbD_eq_getElem hi]

@[simp] theorem fieldRA_encodeX (xo : Nat) (rt ra rb : Reg) : fieldRA (encodeX xo rt ra rb) = ra := by
  unfold fieldRA encodeX
  ext i hi
  simp only [BitVec.getElem_extractLsb', BitVec.getLsbD_append]
  have h1 : ¬ (16 + i < 1) := by omega
  have h2 : ¬ (16 + i - 1 < 10) := by omega
  have h3 : ¬ (16 + i - 1 - 10 < 5) := by omega
  have h4 : 16 + i - 1 - 10 - 5 < 5 := by omega
  have h5 : 16 + i - 1 - 10 - 5 = i := by omega
  simp only [h1, h2, h3, h5, hi, if_false, if_true]
  rw [BitVec.getLsbD_eq_getElem hi]

@[simp] theorem fieldRB_encodeX (xo : Nat) (rt ra rb : Reg) : fieldRB (encodeX xo rt ra rb) = rb := by
  unfold fieldRB encodeX
  ext i hi
  simp only [BitVec.getElem_extractLsb', BitVec.getLsbD_append]
  have h1 : ¬ (11 + i < 1) := by omega
  have h2 : ¬ (11 + i - 1 < 10) := by omega
  have h3 : 11 + i - 1 - 10 < 5 := by omega
  have h4 : 11 + i - 1 - 10 = i := by omega
  simp only [h1, h2, h4, hi, if_false, if_true]
  rw [BitVec.getLsbD_eq_getElem hi]

@[simp] theorem fieldXo_encodeX (xo : Nat) (rt ra rb : Reg) : fieldXo (encodeX xo rt ra rb) = xo % 1024 := by
  have : (encodeX xo rt ra rb).extractLsb' 1 10 = BitVec.ofNat 10 xo := by
    unfold encodeX
    ext i hi
    simp only [BitVec.getElem_extractLsb', BitVec.getLsbD_append]
    have h1 : ¬ (1 + i < 1) := by omega
    have h2 : 1 + i - 1 = i := by omega
    simp only [h1, h2, hi, if_false, if_true]
    rw [BitVec.getLsbD_eq_getElem hi]
  simp [fieldXo, this]

@[simp] theorem fieldRc_encodeX (xo : Nat) (rt ra rb : Reg) : fieldRc (encodeX xo rt ra rb) = false := by
  have : (encodeX xo rt ra rb).extractLsb' 0 1 = 0#1 := by
    unfold encodeX
    ext i hi
    simp only [BitVec.getElem_extractLsb', BitVec.getLsbD_append]
    have h1 : 0 + i < 1 := by omega
    simp only [h1, if_true]
    have h2 : i = 0 := by omega
    subst h2
    exact BitVec.getLsbD_eq_getElem hi
  simp [fieldRc, this]

theorem ofNat_fieldOpcd (w : Word) : BitVec.ofNat 6 (fieldOpcd w) = w.extractLsb' 26 6 := by
  rw [fieldOpcd, BitVec.ofNat_toNat, BitVec.setWidth_eq]

theorem ofNat_fieldXo (w : Word) : BitVec.ofNat 10 (fieldXo w) = w.extractLsb' 1 10 := by
  rw [fieldXo, BitVec.ofNat_toNat, BitVec.setWidth_eq]

/-- A word is its D-form fields put together (R61). -/
theorem encodeD_fields (w : Word) : encodeD (fieldOpcd w) (fieldRT w) (fieldRA w) (fieldD w) = w := by
  rw [encodeD, ofNat_fieldOpcd]
  unfold fieldRT fieldRA fieldD
  apply BitVec.eq_of_getLsbD_eq
  intro i hi
  simp only [BitVec.getLsbD_append, BitVec.getLsbD_extractLsb']
  split
  · simp [*]
  · split
    · next h1 h2 =>
      have e : 16 + (i - 16) = i := by omega
      simp [h2, e]
    · split
      · next h1 h2 h3 =>
        have e : 21 + (i - 16 - 5) = i := by omega
        simp [h3, e]
      · next h1 h2 h3 =>
        have e : 26 + (i - 16 - 5 - 5) = i := by omega
        have h4 : i - 16 - 5 - 5 < 6 := by omega
        simp [h4, e]

/-- A word of primary opcode 31 with bit 31 clear is its X-form fields put together (R62). -/
theorem encodeX_fields (w : Word) (ho : fieldOpcd w = 31) (hr : fieldRc w = false) :
    encodeX (fieldXo w) (fieldRT w) (fieldRA w) (fieldRB w) = w := by
  have ho' : (31#6 : BitVec 6) = w.extractLsb' 26 6 := by
    rw [← ofNat_fieldOpcd, ho]
  have hr' : (0#1 : BitVec 1) = w.extractLsb' 0 1 := by
    have h : w.extractLsb' 0 1 ≠ 1#1 := by simpa [fieldRc] using hr
    have : ∀ b : BitVec 1, b ≠ 1#1 → 0#1 = b := by decide
    exact this _ h
  rw [encodeX, ofNat_fieldXo, ho', hr']
  unfold fieldRT fieldRA fieldRB
  apply BitVec.eq_of_getLsbD_eq
  intro i hi
  simp only [BitVec.getLsbD_append, BitVec.getLsbD_extractLsb']
  split
  · simp [*]
  · split
    · next h1 h2 =>
      have e : 1 + (i - 1) = i := by omega
      simp [h2, e]
    · split
      · next h1 h2 h3 =>
        have e : 11 + (i - 1 - 10) = i := by omega
        simp [h3, e]
      · split
        · next h1 h2 h3 h4 =>
          have e : 16 + (i - 1 - 10 - 5) = i := by omega
          simp [h4, e]
        · split
          · next h1 h2 h3 h4 h5 =>
            have e : 21 + (i - 1 - 10 - 5 - 5) = i := by omega
            simp [h5, e]
          · next h1 h2 h3 h4 h5 =>
            have e : 26 + (i - 1 - 10 - 5 - 5 - 5) = i := by omega
            have h6 : i - 1 - 10 - 5 - 5 - 5 < 6 := by omega
            simp [h6, e]

end Sys2Proof
end

