-- ==== Sys2Proof/Laws/State.lean ====
section
/-! SUPPORT. The small lemmas of the state: one per field per update, and the register reads after each update. -/

namespace Sys2Proof.Machine

@[simp] theorem State.setX_gpr (s : State) (r : Reg) (v : Word) : (s.setX r v).gpr = s.gpr.set r.toNat v r.isLt := rfl
@[simp] theorem State.setX_pc (s : State) (r : Reg) (v : Word) : (s.setX r v).pc = s.pc := rfl
@[simp] theorem State.setX_cr (s : State) (r : Reg) (v : Word) : (s.setX r v).cr = s.cr := rfl
@[simp] theorem State.setX_xer (s : State) (r : Reg) (v : Word) : (s.setX r v).xer = s.xer := rfl
@[simp] theorem State.setX_mem (s : State) (r : Reg) (v : Word) : (s.setX r v).mem = s.mem := rfl
@[simp] theorem State.setX_dirty (s : State) (r : Reg) (v : Word) : (s.setX r v).dirty = s.dirty := rfl
@[simp] theorem State.setX_faultRecord (s : State) (r : Reg) (v : Word) : (s.setX r v).faultRecord = s.faultRecord := rfl
@[simp] theorem State.setX_codeRegion (s : State) (r : Reg) (v : Word) : (s.setX r v).codeRegion = s.codeRegion := rfl
@[simp] theorem State.setX_noLoad (s : State) (r : Reg) (v : Word) : (s.setX r v).noLoad = s.noLoad := rfl
@[simp] theorem State.setX_noStore (s : State) (r : Reg) (v : Word) : (s.setX r v).noStore = s.noStore := rfl
@[simp] theorem State.setX_alignRules (s : State) (r : Reg) (v : Word) : (s.setX r v).alignRules = s.alignRules := rfl
@[simp] theorem State.setX_alignBeforeDSI (s : State) (r : Reg) (v : Word) : (s.setX r v).alignBeforeDSI = s.alignBeforeDSI := rfl
@[simp] theorem State.setX_freeCount (s : State) (r : Reg) (v : Word) : (s.setX r v).freeCount = s.freeCount := rfl

@[simp] theorem State.advance_gpr (s : State) : s.advance.gpr = s.gpr := rfl
@[simp] theorem State.advance_pc (s : State) : s.advance.pc = s.pc + 4#32 := rfl
@[simp] theorem State.advance_cr (s : State) : s.advance.cr = s.cr := rfl
@[simp] theorem State.advance_xer (s : State) : s.advance.xer = s.xer := rfl
@[simp] theorem State.advance_mem (s : State) : s.advance.mem = s.mem := rfl
@[simp] theorem State.advance_dirty (s : State) : s.advance.dirty = s.dirty := rfl
@[simp] theorem State.advance_faultRecord (s : State) : s.advance.faultRecord = s.faultRecord := rfl
@[simp] theorem State.advance_codeRegion (s : State) : s.advance.codeRegion = s.codeRegion := rfl
@[simp] theorem State.advance_noLoad (s : State) : s.advance.noLoad = s.noLoad := rfl
@[simp] theorem State.advance_noStore (s : State) : s.advance.noStore = s.noStore := rfl
@[simp] theorem State.advance_alignRules (s : State) : s.advance.alignRules = s.alignRules := rfl
@[simp] theorem State.advance_alignBeforeDSI (s : State) : s.advance.alignBeforeDSI = s.alignBeforeDSI := rfl
@[simp] theorem State.advance_freeCount (s : State) : s.advance.freeCount = s.freeCount := rfl

@[simp] theorem State.storeByte_gpr (s : State) (a : Word) (b : Byte) : (s.storeByte a b).gpr = s.gpr := rfl
@[simp] theorem State.storeByte_pc (s : State) (a : Word) (b : Byte) : (s.storeByte a b).pc = s.pc := rfl
@[simp] theorem State.storeByte_cr (s : State) (a : Word) (b : Byte) : (s.storeByte a b).cr = s.cr := rfl
@[simp] theorem State.storeByte_xer (s : State) (a : Word) (b : Byte) : (s.storeByte a b).xer = s.xer := rfl
@[simp] theorem State.storeByte_mem (s : State) (a : Word) (b : Byte) : (s.storeByte a b).mem = s.mem.write a.toNat b := rfl
@[simp] theorem State.storeByte_dirty (s : State) (a : Word) (b : Byte) : (s.storeByte a b).dirty = if s.inCode a then addAddr s.dirty a.toNat else s.dirty := rfl
@[simp] theorem State.storeByte_faultRecord (s : State) (a : Word) (b : Byte) : (s.storeByte a b).faultRecord = s.faultRecord := rfl
@[simp] theorem State.storeByte_codeRegion (s : State) (a : Word) (b : Byte) : (s.storeByte a b).codeRegion = s.codeRegion := rfl
@[simp] theorem State.storeByte_noLoad (s : State) (a : Word) (b : Byte) : (s.storeByte a b).noLoad = s.noLoad := rfl
@[simp] theorem State.storeByte_noStore (s : State) (a : Word) (b : Byte) : (s.storeByte a b).noStore = s.noStore := rfl
@[simp] theorem State.storeByte_alignRules (s : State) (a : Word) (b : Byte) : (s.storeByte a b).alignRules = s.alignRules := rfl
@[simp] theorem State.storeByte_alignBeforeDSI (s : State) (a : Word) (b : Byte) : (s.storeByte a b).alignBeforeDSI = s.alignBeforeDSI := rfl
@[simp] theorem State.storeByte_freeCount (s : State) (a : Word) (b : Byte) : (s.storeByte a b).freeCount = s.freeCount := rfl

@[simp] theorem State.raise_gpr (s : State) (e : FaultKind) (w : Word) : (s.raise e w).gpr = s.gpr := rfl
@[simp] theorem State.raise_pc (s : State) (e : FaultKind) (w : Word) : (s.raise e w).pc = s.pc := rfl
@[simp] theorem State.raise_cr (s : State) (e : FaultKind) (w : Word) : (s.raise e w).cr = s.cr := rfl
@[simp] theorem State.raise_xer (s : State) (e : FaultKind) (w : Word) : (s.raise e w).xer = s.xer := rfl
@[simp] theorem State.raise_mem (s : State) (e : FaultKind) (w : Word) : (s.raise e w).mem = s.mem := rfl
@[simp] theorem State.raise_dirty (s : State) (e : FaultKind) (w : Word) : (s.raise e w).dirty = s.dirty := rfl
@[simp] theorem State.raise_faultRecord (s : State) (e : FaultKind) (w : Word) : (s.raise e w).faultRecord = some { kind := e, pc := s.pc, word := w } := rfl
@[simp] theorem State.raise_codeRegion (s : State) (e : FaultKind) (w : Word) : (s.raise e w).codeRegion = s.codeRegion := rfl
@[simp] theorem State.raise_noLoad (s : State) (e : FaultKind) (w : Word) : (s.raise e w).noLoad = s.noLoad := rfl
@[simp] theorem State.raise_noStore (s : State) (e : FaultKind) (w : Word) : (s.raise e w).noStore = s.noStore := rfl
@[simp] theorem State.raise_alignRules (s : State) (e : FaultKind) (w : Word) : (s.raise e w).alignRules = s.alignRules := rfl
@[simp] theorem State.raise_alignBeforeDSI (s : State) (e : FaultKind) (w : Word) : (s.raise e w).alignBeforeDSI = s.alignBeforeDSI := rfl
@[simp] theorem State.raise_freeCount (s : State) (e : FaultKind) (w : Word) : (s.raise e w).freeCount = s.freeCount := rfl

@[simp] theorem State.drawn_gpr (s : State) : s.drawn.gpr = s.gpr := rfl
@[simp] theorem State.drawn_pc (s : State) : s.drawn.pc = s.pc := rfl
@[simp] theorem State.drawn_cr (s : State) : s.drawn.cr = s.cr := rfl
@[simp] theorem State.drawn_xer (s : State) : s.drawn.xer = s.xer := rfl
@[simp] theorem State.drawn_mem (s : State) : s.drawn.mem = s.mem := rfl
@[simp] theorem State.drawn_dirty (s : State) : s.drawn.dirty = s.dirty := rfl
@[simp] theorem State.drawn_faultRecord (s : State) : s.drawn.faultRecord = s.faultRecord := rfl
@[simp] theorem State.drawn_codeRegion (s : State) : s.drawn.codeRegion = s.codeRegion := rfl
@[simp] theorem State.drawn_noLoad (s : State) : s.drawn.noLoad = s.noLoad := rfl
@[simp] theorem State.drawn_noStore (s : State) : s.drawn.noStore = s.noStore := rfl
@[simp] theorem State.drawn_alignRules (s : State) : s.drawn.alignRules = s.alignRules := rfl
@[simp] theorem State.drawn_alignBeforeDSI (s : State) : s.drawn.alignBeforeDSI = s.alignBeforeDSI := rfl
@[simp] theorem State.drawn_freeCount (s : State) : s.drawn.freeCount = s.freeCount + 1 := rfl

@[simp] theorem State.raiseStale_gpr (s : State) : s.raiseStale.gpr = s.gpr := rfl
@[simp] theorem State.raiseStale_pc (s : State) : s.raiseStale.pc = s.pc := rfl
@[simp] theorem State.raiseStale_cr (s : State) : s.raiseStale.cr = s.cr := rfl
@[simp] theorem State.raiseStale_xer (s : State) : s.raiseStale.xer = s.xer := rfl
@[simp] theorem State.raiseStale_mem (s : State) : s.raiseStale.mem = s.mem := rfl
@[simp] theorem State.raiseStale_dirty (s : State) : s.raiseStale.dirty = s.dirty := rfl
@[simp] theorem State.raiseStale_codeRegion (s : State) : s.raiseStale.codeRegion = s.codeRegion := rfl
@[simp] theorem State.raiseStale_noLoad (s : State) : s.raiseStale.noLoad = s.noLoad := rfl
@[simp] theorem State.raiseStale_noStore (s : State) : s.raiseStale.noStore = s.noStore := rfl
@[simp] theorem State.raiseStale_alignRules (s : State) : s.raiseStale.alignRules = s.alignRules := rfl
@[simp] theorem State.raiseStale_alignBeforeDSI (s : State) : s.raiseStale.alignBeforeDSI = s.alignBeforeDSI := rfl
@[simp] theorem State.raiseStale_faultRecord (s : State) :
    s.raiseStale.faultRecord = some { kind := .staleFetch s.pc, pc := s.pc, word := Config.freeWord s.freeCount } := rfl
@[simp] theorem State.raiseStale_freeCount (s : State) : s.raiseStale.freeCount = s.freeCount + 1 := rfl

@[simp] theorem State.storeBytes_gpr (s : State) (a : Word) (bs : List Byte) : (s.storeBytes a bs).gpr = s.gpr := by
  induction bs generalizing s a with
  | nil => rfl
  | cons b bs ih => simp [State.storeBytes, ih]

@[simp] theorem State.storeBytes_pc (s : State) (a : Word) (bs : List Byte) : (s.storeBytes a bs).pc = s.pc := by
  induction bs generalizing s a with
  | nil => rfl
  | cons b bs ih => simp [State.storeBytes, ih]

@[simp] theorem State.storeBytes_cr (s : State) (a : Word) (bs : List Byte) : (s.storeBytes a bs).cr = s.cr := by
  induction bs generalizing s a with
  | nil => rfl
  | cons b bs ih => simp [State.storeBytes, ih]

@[simp] theorem State.storeBytes_xer (s : State) (a : Word) (bs : List Byte) : (s.storeBytes a bs).xer = s.xer := by
  induction bs generalizing s a with
  | nil => rfl
  | cons b bs ih => simp [State.storeBytes, ih]

@[simp] theorem State.storeBytes_faultRecord (s : State) (a : Word) (bs : List Byte) : (s.storeBytes a bs).faultRecord = s.faultRecord := by
  induction bs generalizing s a with
  | nil => rfl
  | cons b bs ih => simp [State.storeBytes, ih]

@[simp] theorem State.storeBytes_codeRegion (s : State) (a : Word) (bs : List Byte) : (s.storeBytes a bs).codeRegion = s.codeRegion := by
  induction bs generalizing s a with
  | nil => rfl
  | cons b bs ih => simp [State.storeBytes, ih]

@[simp] theorem State.storeBytes_noLoad (s : State) (a : Word) (bs : List Byte) : (s.storeBytes a bs).noLoad = s.noLoad := by
  induction bs generalizing s a with
  | nil => rfl
  | cons b bs ih => simp [State.storeBytes, ih]

@[simp] theorem State.storeBytes_noStore (s : State) (a : Word) (bs : List Byte) : (s.storeBytes a bs).noStore = s.noStore := by
  induction bs generalizing s a with
  | nil => rfl
  | cons b bs ih => simp [State.storeBytes, ih]

@[simp] theorem State.storeBytes_alignRules (s : State) (a : Word) (bs : List Byte) : (s.storeBytes a bs).alignRules = s.alignRules := by
  induction bs generalizing s a with
  | nil => rfl
  | cons b bs ih => simp [State.storeBytes, ih]

@[simp] theorem State.storeBytes_alignBeforeDSI (s : State) (a : Word) (bs : List Byte) : (s.storeBytes a bs).alignBeforeDSI = s.alignBeforeDSI := by
  induction bs generalizing s a with
  | nil => rfl
  | cons b bs ih => simp [State.storeBytes, ih]

@[simp] theorem State.storeBytes_freeCount (s : State) (a : Word) (bs : List Byte) : (s.storeBytes a bs).freeCount = s.freeCount := by
  induction bs generalizing s a with
  | nil => rfl
  | cons b bs ih => simp [State.storeBytes, ih]

/-! ## Register reads -/

theorem State.x_setX (s : State) (r q : Reg) (v : Word) : (s.setX r v).x q = if q = r then v else s.x q := by
  simp only [State.x, State.setX, Vector.getElem_set]
  by_cases h : q = r
  · simp [h]
  · have : r.toNat ≠ q.toNat := fun e => h (BitVec.eq_of_toNat_eq e.symm)
    simp [h, this]

@[simp] theorem State.x_setX_self (s : State) (r : Reg) (v : Word) : (s.setX r v).x r = v := by simp [State.x_setX]

theorem State.x_setX_ne (s : State) {r q : Reg} (v : Word) (h : q ≠ r) : (s.setX r v).x q = s.x q := by
  simp [State.x_setX, h]

/-- Registers depend on the register file alone. -/
theorem State.x_congr {s t : State} (h : t.gpr = s.gpr) (r : Reg) : t.x r = s.x r := by simp [State.x, h]

@[simp] theorem State.x_advance (s : State) (r : Reg) : s.advance.x r = s.x r := rfl
@[simp] theorem State.x_storeByte (s : State) (a : Word) (b : Byte) (r : Reg) : (s.storeByte a b).x r = s.x r := rfl
@[simp] theorem State.x_raise (s : State) (e : FaultKind) (w : Word) (r : Reg) : (s.raise e w).x r = s.x r := rfl
@[simp] theorem State.x_drawn (s : State) (r : Reg) : s.drawn.x r = s.x r := rfl
@[simp] theorem State.x_storeBytes (s : State) (a : Word) (bs : List Byte) (r : Reg) :
    (s.storeBytes a bs).x r = s.x r := State.x_congr (by simp) r

/-- Two register files that agree on every register are equal. -/
theorem State.gpr_ext {s t : State} (h : ∀ r : Reg, s.x r = t.x r) : s.gpr = t.gpr := by
  apply Vector.ext
  intro i hi
  have := h (BitVec.ofNat 5 i)
  simpa [State.x, Nat.mod_eq_of_lt hi] using this

/-! ## Memory reads and program-text membership -/

/-- Memory reads depend on the memory alone. -/
theorem State.byteAt_congr {s t : State} (h : t.mem = s.mem) (a : Word) : t.byteAt a = s.byteAt a := by
  simp [State.byteAt, h]

@[simp] theorem State.byteAt_setX (s : State) (r : Reg) (v : Word) (a : Word) : (s.setX r v).byteAt a = s.byteAt a := rfl
@[simp] theorem State.byteAt_advance (s : State) (a : Word) : s.advance.byteAt a = s.byteAt a := rfl
@[simp] theorem State.byteAt_raise (s : State) (e : FaultKind) (w : Word) (a : Word) :
    (s.raise e w).byteAt a = s.byteAt a := rfl
@[simp] theorem State.byteAt_drawn (s : State) (a : Word) : s.drawn.byteAt a = s.byteAt a := rfl
@[simp] theorem State.wordAt_setX (s : State) (r : Reg) (v : Word) (a : Word) : (s.setX r v).wordAt a = s.wordAt a := rfl
@[simp] theorem State.inCode_storeByte (s : State) (c : Word) (b : Byte) (a : Word) :
    (s.storeByte c b).inCode a = s.inCode a := rfl

end Sys2Proof.Machine
end

