-- ==== Sys2Proof/Laws/Memory.lean ====
section
/-! SUPPORT. Memory: a read after a write, and every write keeps the canonical form; the same for the set `Dirty`. -/

namespace Sys2Proof.Machine

/-! ## Reads after writes -/

theorem Memory.read_erase (m : Memory) (a c : Nat) :
    Memory.read (Memory.erase m a) c = if c = a then Config.unlistedByte else Memory.read m c := by
  induction m with
  | nil => simp [Memory.erase, Memory.read]
  | cons p m ih =>
    obtain ⟨k, v⟩ := p
    by_cases hk : k = a
    · subst hk
      simp only [Memory.erase, List.filter_cons, bne_self_eq_false, Bool.false_eq_true, if_false] at ih ⊢
      rw [ih]
      by_cases hc : c = k
      · simp [hc]
      · simp [hc, Memory.read, Ne.symm hc]
    · simp only [Memory.erase, List.filter_cons, bne_iff_ne, ne_eq, hk, not_false_eq_true, if_true, Memory.read] at ih ⊢
      rw [ih]
      by_cases hc : k = c
      · subst hc; simp [hk]
      · simp [hc]

theorem Memory.read_insert (m : Memory) (a c : Nat) (b : Byte) (h : ∀ p ∈ m, p.1 ≠ a) :
    Memory.read (Memory.insert m a b) c = if c = a then b else Memory.read m c := by
  induction m with
  | nil => by_cases hc : a = c <;> simp [Memory.insert, Memory.read, hc, eq_comm]
  | cons p m ih =>
    obtain ⟨k, v⟩ := p
    have hk : k ≠ a := h (k, v) (by simp)
    simp only [Memory.insert]
    split
    · by_cases hc : a = c
      · simp [Memory.read, hc]
      · simp [Memory.read, hc, Ne.symm hc]
    · simp only [Memory.read, ih (fun p hp => h p (by simp [hp]))]
      by_cases hc : k = c
      · subst hc; simp [hk]
      · simp [hc]

theorem Memory.read_write (m : Memory) (a c : Nat) (b : Byte) :
    Memory.read (Memory.write m a b) c = if c = a then b else Memory.read m c := by
  unfold Memory.write
  split
  · next h => rw [Memory.read_erase, h]
  · rw [Memory.read_insert, Memory.read_erase]
    · by_cases hc : c = a <;> simp [hc]
    · intro p hp
      simpa using (List.mem_filter.mp hp).2

/-! ## The canonical form -/

theorem Memory.wf_cons (k : Nat) (v : Byte) (m : Memory) :
    Memory.wf ((k, v) :: m) = true ↔
      k < 2 ^ 32 ∧ v ≠ Config.unlistedByte ∧ (∀ p ∈ m, k < p.1) ∧ Memory.wf m = true := by
  simp [Memory.wf, and_assoc]

theorem Memory.wf_erase {m : Memory} (h : Memory.wf m = true) (a : Nat) : Memory.wf (Memory.erase m a) = true := by
  induction m with
  | nil => rfl
  | cons p m ih =>
    obtain ⟨k, v⟩ := p
    rw [Memory.wf_cons] at h
    have ih := ih h.2.2.2
    by_cases hk : k = a
    · subst hk
      simpa [Memory.erase] using ih
    · have : Memory.erase ((k, v) :: m) a = (k, v) :: Memory.erase m a := by simp [Memory.erase, hk]
      rw [this, Memory.wf_cons]
      exact ⟨h.1, h.2.1, fun p hp => h.2.2.1 p (List.mem_of_mem_filter hp), ih⟩

theorem Memory.mem_insert {m : Memory} {a : Nat} {b : Byte} {p : Host.Cell} (h : p ∈ Memory.insert m a b) :
    p = (a, b) ∨ p ∈ m := by
  induction m with
  | nil => simpa [Memory.insert] using h
  | cons q m ih =>
    obtain ⟨k, v⟩ := q
    simp only [Memory.insert] at h
    split at h
    · simpa using h
    · rcases List.mem_cons.mp h with h | h
      · exact Or.inr (by simp [h])
      · rcases ih h with h | h
        · exact Or.inl h
        · exact Or.inr (by simp [h])

theorem Memory.wf_insert {m : Memory} {a : Nat} {b : Byte} (h : Memory.wf m = true) (ha : a < 2 ^ 32)
    (hb : b ≠ Config.unlistedByte) (hn : ∀ p ∈ m, p.1 ≠ a) : Memory.wf (Memory.insert m a b) = true := by
  induction m with
  | nil =>
    rw [Memory.insert, Memory.wf_cons]
    exact ⟨ha, hb, by simp, rfl⟩
  | cons q m ih =>
    obtain ⟨k, v⟩ := q
    have hw := h
    rw [Memory.wf_cons] at h
    simp only [Memory.insert]
    split
    · next hlt =>
      rw [Memory.wf_cons]
      refine ⟨ha, hb, ?_, hw⟩
      intro p hp
      rcases List.mem_cons.mp hp with rfl | hp
      · exact hlt
      · exact lt_trans hlt (h.2.2.1 p hp)
    · next hlt =>
      have hka : k ≠ a := hn (k, v) (by simp)
      rw [Memory.wf_cons]
      refine ⟨h.1, h.2.1, ?_, ih h.2.2.2 (fun p hp => hn p (by simp [hp]))⟩
      intro p hp
      rcases Memory.mem_insert hp with rfl | hp
      · show k < a
        omega
      · exact h.2.2.1 p hp

/-- A write of one byte keeps the canonical form. -/
theorem Memory.wf_write {m : Memory} (h : Memory.wf m = true) {a : Nat} (ha : a < 2 ^ 32) (b : Byte) :
    Memory.wf (Memory.write m a b) = true := by
  unfold Memory.write
  split
  · exact Memory.wf_erase h a
  · next hb =>
    refine Memory.wf_insert (Memory.wf_erase h a) ha hb ?_
    intro p hp
    simpa using (List.mem_filter.mp hp).2

/-- The placing of a word keeps the canonical form. -/
theorem Memory.wf_writeWord {m : Memory} (h : Memory.wf m = true) (a w : Word) :
    Memory.wf (Memory.writeWord m a w) = true :=
  Memory.wf_write (Memory.wf_write (Memory.wf_write (Memory.wf_write h a.isLt _) (addrPlus a 1).isLt _)
    (addrPlus a 2).isLt _) (addrPlus a 3).isLt _

theorem reset_mem_wf : Memory.wf State.reset.mem = true := rfl

/-! ## The set `Dirty` -/

theorem mem_addAddr (l : List Nat) (a c : Nat) : c ∈ addAddr l a ↔ c = a ∨ c ∈ l := by
  induction l with
  | nil => simp [addAddr]
  | cons k l ih =>
    simp only [addAddr]
    split
    · simp
    · split
      · next h => subst h; simp
      · simp only [List.mem_cons, ih]
        tauto

theorem rising_addAddr {l : List Nat} (h : risingAddrs l = true) (a : Nat) : risingAddrs (addAddr l a) = true := by
  induction l with
  | nil => rfl
  | cons k l ih =>
    have hc : ∀ (k : Nat) (l : List Nat),
        risingAddrs (k :: l) = true ↔ (∀ b ∈ l, k < b) ∧ risingAddrs l = true := by
      intro k l
      simp [risingAddrs]
    have h' := (hc k l).mp h
    simp only [addAddr]
    split
    · next hlt =>
      rw [hc]
      refine ⟨?_, h⟩
      intro b hb
      rcases List.mem_cons.mp hb with rfl | hb
      · exact hlt
      · exact lt_trans hlt (h'.1 b hb)
    · split
      · exact h
      · rw [hc]
        refine ⟨?_, ih h'.2⟩
        intro b hb
        rcases (mem_addAddr l a b).mp hb with rfl | hb
        · omega
        · exact h'.1 b hb

/-! ## Reads of the machine's memory after stores -/

theorem State.byteAt_storeByte (s : State) (a c : Word) (b : Byte) :
    (s.storeByte a b).byteAt c = if c = a then b else s.byteAt c := by
  simp only [State.byteAt, State.storeByte_mem, Memory.read_write]
  by_cases h : c = a
  · simp [h]
  · have : c.toNat ≠ a.toNat := fun e => h (BitVec.eq_of_toNat_eq e)
    simp [h, this]

theorem addrPlus_zero (a : Word) : addrPlus a 0 = a := by simp [addrPlus]

theorem addrPlus_addrPlus (a : Word) (j k : Nat) : addrPlus (addrPlus a j) k = addrPlus a (j + k) := by
  simp [addrPlus, BitVec.add_assoc, BitVec.ofNat_add]

/-- Different small offsets give different addresses, wrap or not. -/
theorem addrPlus_inj {a : Word} {j k : Nat} (hj : j < 2 ^ 32) (hk : k < 2 ^ 32) (h : addrPlus a j = addrPlus a k) :
    j = k := by
  have h' : BitVec.ofNat 32 j = BitVec.ofNat 32 k := by simpa [addrPlus] using h
  have := congrArg BitVec.toNat h'
  rwa [BitVec.toNat_ofNat, BitVec.toNat_ofNat, Nat.mod_eq_of_lt hj, Nat.mod_eq_of_lt hk] at this

/-- Storing bytes leaves every byte outside them alone (R41). -/
theorem State.byteAt_storeBytes_of_outside (s : State) (a c : Word) (bs : List Byte)
    (h : ∀ k < bs.length, c ≠ addrPlus a k) : (s.storeBytes a bs).byteAt c = s.byteAt c := by
  induction bs generalizing s a with
  | nil => rfl
  | cons b bs ih =>
    simp only [State.storeBytes]
    rw [ih, State.byteAt_storeByte, if_neg]
    · simpa [addrPlus_zero] using h 0 (by simp)
    · intro k hk
      rw [addrPlus_addrPlus]
      exact h (1 + k) (by simp; omega)

/-- Storing bytes puts byte `k` at `a + k`, modulo 2^32 (R41). -/
theorem State.byteAt_storeBytes (s : State) (a : Word) (bs : List Byte) (hl : bs.length < 2 ^ 32) (k : Nat)
    (hk : k < bs.length) : (s.storeBytes a bs).byteAt (addrPlus a k) = bs[k] := by
  induction bs generalizing s a k with
  | nil => simp at hk
  | cons b bs ih =>
    simp only [List.length_cons] at hl hk
    simp only [State.storeBytes]
    cases k with
    | zero =>
      rw [State.byteAt_storeBytes_of_outside, State.byteAt_storeByte]
      · simp [addrPlus_zero]
      · intro j hj e
        rw [addrPlus_addrPlus] at e
        have := addrPlus_inj (by omega) (by omega) e
        omega
    | succ k =>
      have := ih (s.storeByte a b) (addrPlus a 1) (by omega) k (by omega)
      rw [addrPlus_addrPlus, Nat.add_comm 1 k] at this
      simpa using this

/-- Storing bytes adds to `Dirty` the stored bytes of the program text and nothing else (R41, R56). -/
theorem State.mem_dirty_storeBytes (s : State) (a : Word) (bs : List Byte) (c : Nat) :
    c ∈ (s.storeBytes a bs).dirty ↔
      c ∈ s.dirty ∨ ∃ k < bs.length, s.inCode (addrPlus a k) = true ∧ c = (addrPlus a k).toNat := by
  induction bs generalizing s a with
  | nil => simp [State.storeBytes]
  | cons b bs ih =>
    simp only [State.storeBytes, ih, List.length_cons]
    constructor
    · rintro (h | ⟨k, hk, hc, rfl⟩)
      · simp only [State.storeByte_dirty] at h
        split at h
        · next hin =>
          rcases (mem_addAddr _ _ _).mp h with rfl | h
          · exact Or.inr ⟨0, by omega, by simpa [addrPlus_zero] using hin, by simp [addrPlus_zero]⟩
          · exact Or.inl h
        · exact Or.inl h
      · refine Or.inr ⟨k + 1, by omega, ?_, ?_⟩
        · simpa [addrPlus_addrPlus, Nat.add_comm] using hc
        · simp [addrPlus_addrPlus, Nat.add_comm]
    · rintro (h | ⟨k, hk, hc, rfl⟩)
      · left
        simp only [State.storeByte_dirty]
        split
        · exact (mem_addAddr _ _ _).mpr (Or.inr h)
        · exact h
      · cases k with
        | zero =>
          left
          have hin : s.inCode a = true := by simpa [addrPlus_zero] using hc
          simp [hin, mem_addAddr, addrPlus_zero]
        | succ k =>
          right
          refine ⟨k, by omega, ?_, ?_⟩
          · simpa [addrPlus_addrPlus, Nat.add_comm] using hc
          · simp [addrPlus_addrPlus, Nat.add_comm]

end Sys2Proof.Machine
end

