-- ==== Sys2Proof/Laws/Ops.lean ====
section
/-! SUPPORT. What each shared operation can do, once: the check of an access, the shapes of loads and stores, and the
transfers of multiples and strings. Proofs about instructions cite these instead of unfolding the operations. -/

namespace Sys2Proof.Machine

/-! ## Admission and alignment -/

/-- Nothing is rejected exactly when every byte is admitted (R47). -/
theorem State.firstRejected_eq_none (s : State) (kind : AccessKind) (a : Word) (n : Nat) :
    s.firstRejected kind a n = none ↔ ∀ k < n, s.admits kind (addrPlus a k) = true := by
  simp [State.firstRejected, List.find?_eq_none]

/-- The first rejected byte is byte `k` when byte `k` is rejected and every earlier one admitted (R47). -/
theorem State.firstRejected_eq_some (s : State) (kind : AccessKind) (a : Word) {n k : Nat} (hk : k < n)
    (hr : s.admits kind (addrPlus a k) = false) (hb : ∀ j < k, s.admits kind (addrPlus a j) = true) :
    s.firstRejected kind a n = some (addrPlus a k) := by
  induction n with
  | zero => omega
  | succ n ih =>
    have hsucc : s.firstRejected kind a (n + 1) =
        (s.firstRejected kind a n).or (if s.admits kind (addrPlus a n) then none else some (addrPlus a n)) := by
      simp only [State.firstRejected, List.range_succ, List.map_append, List.find?_append]
      congr 1
      cases h : s.admits kind (addrPlus a n) <;> simp [h]
    rw [hsucc]
    rcases Nat.lt_succ_iff_lt_or_eq.mp hk with h | rfl
    · rw [ih h]; rfl
    · rw [(s.firstRejected_eq_none kind a k).mpr hb]
      simp [hr]

/-- A rejected byte has a position, and every earlier byte is admitted (R47). -/
theorem State.firstRejected_cases {s : State} {kind : AccessKind} {a b : Word} {n : Nat}
    (h : s.firstRejected kind a n = some b) :
    ∃ k < n, b = addrPlus a k ∧ s.admits kind (addrPlus a k) = false ∧
      ∀ j < k, s.admits kind (addrPlus a j) = true := by
  by_contra hne
  have hall : ∀ k, k < n → s.admits kind (addrPlus a k) = true := by
    intro k
    induction k using Nat.strong_induction_on with
    | _ k ih =>
      intro hk
      by_contra hr
      have hr : s.admits kind (addrPlus a k) = false := by simpa using hr
      have hb : ∀ j < k, s.admits kind (addrPlus a j) = true := fun j hj => ih j hj (by omega)
      have := s.firstRejected_eq_some kind a hk hr hb
      rw [h] at this
      exact hne ⟨k, hk, Option.some.inj this, hr, hb⟩
  rw [(s.firstRejected_eq_none kind a n).mpr hall] at h
  cases h

/-- A naturally aligned access never traps (R46, constraint 1). -/
theorem State.alignTrap_of_aligned (s : State) (i : Instr) (a : Word) (n : Nat) (h : a.toNat % n = 0) :
    s.alignTrap i a n = false := by
  simp [State.alignTrap, h]

/-- A byte access never traps (R46, constraint 1). -/
@[simp] theorem State.alignTrap_byte (s : State) (i : Instr) (a : Word) : s.alignTrap i a 1 = false :=
  s.alignTrap_of_aligned i a 1 (Nat.mod_one _)

/-- A multiple traps exactly when it is misaligned (R46, constraints 1 and 2). -/
theorem State.alignTrap_multiple (s : State) {i : Instr} (hi : isMultiple i = true) (a : Word) :
    s.alignTrap i a 4 = (a.toNat % 4 != 0) := by
  simp [State.alignTrap, hi]

/-- The check passes exactly when no alignment trap applies and every byte is admitted (R47). -/
theorem State.check_eq_none (s : State) (i : Instr) (a : Word) (n : Nat) (kind : AccessKind) :
    s.check i a n kind = none ↔
      s.alignTrap i a n = false ∧ ∀ k < n, s.admits kind (addrPlus a k) = true := by
  rw [← State.firstRejected_eq_none]
  unfold State.check
  cases s.alignTrap i a n <;> cases s.firstRejected kind a n <;> simp
  split <;> simp

/-- The check's Alignment (R47). -/
theorem State.check_alignment (s : State) {i : Instr} {a : Word} {n : Nat} {kind : AccessKind}
    (ht : s.alignTrap i a n = true)
    (h : (∀ k < n, s.admits kind (addrPlus a k) = true) ∨ s.alignBeforeDSI = true) :
    s.check i a n kind = some (.alignment a kind) := by
  unfold State.check
  rw [ht]
  rcases h with h | h
  · rw [(s.firstRejected_eq_none kind a n).mpr h]
  · cases s.firstRejected kind a n <;> simp [h]

/-- The check's DSI (R47). -/
theorem State.check_dsi (s : State) {i : Instr} {a : Word} {n k : Nat} {kind : AccessKind} (hk : k < n)
    (hr : s.admits kind (addrPlus a k) = false) (hb : ∀ j < k, s.admits kind (addrPlus a j) = true)
    (h : s.alignTrap i a n = false ∨ s.alignBeforeDSI = false) :
    s.check i a n kind = some (.dsi (addrPlus a k) kind) := by
  unfold State.check
  rw [s.firstRejected_eq_some kind a hk hr hb]
  rcases h with h | h
  · rw [h]
  · cases s.alignTrap i a n <;> simp [h]

/-- Whatever the check raises is an Alignment or a DSI of the access kind; Alignment only if the trap applies (R47). -/
theorem State.check_cases {s : State} {i : Instr} {a : Word} {n : Nat} {kind : AccessKind} {e : FaultKind}
    (h : s.check i a n kind = some e) :
    (e = .alignment a kind ∧ s.alignTrap i a n = true) ∨ ∃ b, e = .dsi b kind := by
  unfold State.check at h
  cases ht : s.alignTrap i a n <;> cases hf : s.firstRejected kind a n <;> simp [ht, hf] at h
  · exact Or.inr ⟨_, h.symm⟩
  · exact Or.inl ⟨h.symm, rfl⟩
  · split at h
    · exact Or.inl ⟨(Option.some.inj h).symm, rfl⟩
    · exact Or.inr ⟨_, (Option.some.inj h).symm⟩

/-- A multiple's check raises an Alignment or a DSI of the access kind (R144, R145). -/
theorem State.checkMultiple_cases {s : State} {i : Instr} {a : Word} {n : Nat} {kind : AccessKind} {e : FaultKind}
    (h : s.checkMultiple i a n kind = some e) : (e = .alignment a kind) ∨ ∃ b, e = .dsi b kind := by
  unfold State.checkMultiple at h
  cases hc : s.check i a 4 kind with
  | some e' =>
    simp only [hc, Option.some.injEq] at h
    subst h
    exact (State.check_cases hc).imp (·.1) id
  | none =>
    simp only [hc, Option.map_eq_some_iff] at h
    obtain ⟨b, _, rfl⟩ := h
    exact Or.inr ⟨b, rfl⟩

/-- A multiple at a word-aligned EA passes its check exactly when its whole block is admitted (R144, R145). -/
theorem State.checkMultiple_eq_none (s : State) {i : Instr} {a : Word} {n : Nat} {kind : AccessKind} (hn : 0 < n)
    (ha : a.toNat % 4 = 0) (h : ∀ k < 4 * n, s.admits kind (addrPlus a k) = true) :
    s.checkMultiple i a n kind = none := by
  have hc : s.check i a 4 kind = none :=
    (s.check_eq_none i a 4 kind).mpr ⟨s.alignTrap_of_aligned i a 4 ha, fun k hk => h k (by omega)⟩
  rw [State.checkMultiple, hc]
  simpa using (s.firstRejected_eq_none kind a (4 * n)).mpr h

/-- A multiple raises the DSI of the first rejected byte of its block, unless its first word raises Alignment: at a
word-aligned EA always, at another EA where that byte is of the first word and `AlignBeforeDSI` is false (R47, R144, R145). -/
theorem State.checkMultiple_dsi (s : State) {i : Instr} {a : Word} {n k : Nat} {kind : AccessKind}
    (ha : a.toNat % 4 = 0 ∨ (k < 4 ∧ s.alignBeforeDSI = false)) (hk : k < 4 * n)
    (hr : s.admits kind (addrPlus a k) = false) (hb : ∀ j < k, s.admits kind (addrPlus a j) = true) :
    s.checkMultiple i a n kind = some (.dsi (addrPlus a k) kind) := by
  by_cases h4 : k < 4
  · rw [State.checkMultiple, s.check_dsi h4 hr hb (ha.imp (s.alignTrap_of_aligned i a 4) And.right)]
  · have ha := ha.resolve_right (fun h => h4 h.1)
    have hc : s.check i a 4 kind = none :=
      (s.check_eq_none i a 4 kind).mpr ⟨s.alignTrap_of_aligned i a 4 ha, fun j hj => hb j (by omega)⟩
    rw [State.checkMultiple, hc, s.firstRejected_eq_some kind a hk hr hb]
    rfl

/-! ## The shapes of an instruction -/

@[simp] theorem State.raiseAt_eq (s : State) (i : Instr) (e : FaultKind) :
    s.raiseAt i e = .next (s.raise e (encode i)) := rfl

theorem whenValid_of_valid {i : Instr} (s : State) (k : Result) (h : invalidForm? i = none) : whenValid i s k = k := by
  simp [whenValid, h]

theorem whenValid_of_invalid {i : Instr} (s : State) (k : Result) {reason : InvalidReason}
    (h : invalidForm? i = some reason) : whenValid i s k = .next (s.raise (.invalidForm reason) (encode i)) := by
  simp [whenValid, h]

/-- A load completes or raises (R90, R108). -/
theorem loadTo_cases {i : Instr} {s t : State} {ea : Word} {n : Nat} {rt : Reg} {v : Word}
    (h : loadTo i s ea n rt v = .next t) :
    (s.check i ea n .load = none ∧ t = (s.setX rt v).advance) ∨
      ∃ e, s.check i ea n .load = some e ∧ t = s.raise e (encode i) := by
  unfold loadTo at h
  cases hc : s.check i ea n .load <;> simp [hc] at h
  · exact Or.inl ⟨rfl, h.symm⟩
  · exact Or.inr ⟨_, rfl, h.symm⟩

/-- A load with update is an invalid form, completes, or raises (R91). -/
theorem loadToU_cases {i : Instr} {s t : State} {ea : Word} {n : Nat} {rt ra : Reg} {v : Word}
    (h : loadToU i s ea n rt ra v = .next t) :
    (∃ reason, invalidForm? i = some reason ∧ t = s.raise (.invalidForm reason) (encode i)) ∨
      (invalidForm? i = none ∧ s.check i ea n .load = none ∧ t = ((s.setX rt v).setX ra ea).advance) ∨
      ∃ e, s.check i ea n .load = some e ∧ t = s.raise e (encode i) := by
  unfold loadToU whenValid at h
  cases hv : invalidForm? i <;> simp [hv] at h
  · cases hc : s.check i ea n .load <;> simp [hc] at h
    · exact Or.inr (Or.inl ⟨rfl, rfl, h.symm⟩)
    · exact Or.inr (Or.inr ⟨_, rfl, h.symm⟩)
  · exact Or.inl ⟨_, rfl, h.symm⟩

/-- A store completes or raises (R110, R125). -/
theorem storeFrom_cases {i : Instr} {s t : State} {ea : Word} {bs : List Byte} (h : storeFrom i s ea bs = .next t) :
    (s.check i ea bs.length .store = none ∧ t = (s.storeBytes ea bs).advance) ∨
      ∃ e, s.check i ea bs.length .store = some e ∧ t = s.raise e (encode i) := by
  unfold storeFrom at h
  cases hc : s.check i ea bs.length .store <;> simp [hc] at h
  · exact Or.inl ⟨rfl, h.symm⟩
  · exact Or.inr ⟨_, rfl, h.symm⟩

/-- A store with update is an invalid form, completes, or raises (R111). -/
theorem storeFromU_cases {i : Instr} {s t : State} {ea : Word} {ra : Reg} {bs : List Byte}
    (h : storeFromU i s ea ra bs = .next t) :
    (∃ reason, invalidForm? i = some reason ∧ t = s.raise (.invalidForm reason) (encode i)) ∨
      (invalidForm? i = none ∧ s.check i ea bs.length .store = none ∧
        t = ((s.storeBytes ea bs).setX ra ea).advance) ∨
      ∃ e, s.check i ea bs.length .store = some e ∧ t = s.raise e (encode i) := by
  unfold storeFromU whenValid at h
  cases hv : invalidForm? i <;> simp [hv] at h
  · cases hc : s.check i ea bs.length .store <;> simp [hc] at h
    · exact Or.inr (Or.inl ⟨rfl, rfl, h.symm⟩)
    · exact Or.inr (Or.inr ⟨_, rfl, h.symm⟩)
  · exact Or.inl ⟨_, rfl, h.symm⟩

/-- A block instruction completes, took a DSI part-way, or raised something else before any transfer (R144, R160). -/
theorem blockResult_cases {i : Instr} {raised : Option FaultKind} {s whole part t : State}
    (h : blockResult i raised s whole part = .next t) :
    (raised = none ∧ t = whole.advance) ∨
      (∃ a kind, raised = some (.dsi a kind) ∧ t = part.drawn.raise (.dsi a kind) (encode i)) ∨
      ∃ e, raised = some e ∧ t = s.raise e (encode i) := by
  unfold blockResult at h
  split at h
  · exact Or.inl ⟨rfl, by simpa using h.symm⟩
  · exact Or.inr (Or.inl ⟨_, _, rfl, by simpa using h.symm⟩)
  · exact Or.inr (Or.inr ⟨_, rfl, by simpa using h.symm⟩)

/-! ## The transfers of multiples and strings -/

theorem runReg_inj {first : Reg} {j k : Nat} (hj : j < 32) (hk : k < 32) (h : runReg first j = runReg first k) :
    j = k := by
  have h' : BitVec.ofNat 5 j = BitVec.ofNat 5 k := by simpa [runReg] using h
  have := congrArg BitVec.toNat h'
  rwa [BitVec.toNat_ofNat, BitVec.toNat_ofNat, Nat.mod_eq_of_lt hj, Nat.mod_eq_of_lt hk] at this

/-- lmw's transfers write registers only (R141). -/
theorem State.loadWords_eq (s : State) (pick : Nat → Bool) (rt : Reg) (ea : Word) (n : Nat) :
    s.loadWords pick rt ea n = { s with gpr := (s.loadWords pick rt ea n).gpr } := by
  induction n with
  | zero => rfl
  | succ n ih =>
    simp only [State.loadWords]
    split
    · rw [ih]; rfl
    · exact ih

/-- lmw's transfers: word `j`, if picked, is in register `RT + j` (R141). -/
theorem State.x_loadWords (s : State) (pick : Nat → Bool) (rt : Reg) (ea : Word) {n : Nat} (hn : n ≤ 32) {j : Nat}
    (hj : j < n) :
    (s.loadWords pick rt ea n).x (runReg rt j) =
      if pick j then s.wordAt (addrPlus ea (4 * j)) else s.x (runReg rt j) := by
  have hout : ∀ (m : Nat) (r : Reg), (∀ k < m, r ≠ runReg rt k) → (s.loadWords pick rt ea m).x r = s.x r := by
    intro m r hr
    induction m with
    | zero => rfl
    | succ m ih =>
      have ih := ih (fun k hk => hr k (by omega))
      simp only [State.loadWords]
      split
      · rw [State.x_setX_ne _ _ (hr m (by omega)), ih]
      · exact ih
  induction n with
  | zero => omega
  | succ n ih =>
    simp only [State.loadWords]
    rcases Nat.lt_succ_iff_lt_or_eq.mp hj with h | rfl
    · have hne : runReg rt j ≠ runReg rt n := fun e => by
        have := runReg_inj (by omega) (by omega) e
        omega
      split
      · rw [State.x_setX_ne _ _ hne, ih (by omega) h]
      · exact ih (by omega) h
    · split
      · simp
      · apply hout
        intro k hk e
        have := runReg_inj (by omega) (by omega) e
        omega

/-- lmw's transfers leave every register outside the run alone (R141). -/
theorem State.x_loadWords_outside (s : State) (pick : Nat → Bool) (rt : Reg) (ea : Word) (n : Nat) {r : Reg}
    (hr : ∀ k < n, r ≠ runReg rt k) : (s.loadWords pick rt ea n).x r = s.x r := by
  induction n with
  | zero => rfl
  | succ n ih =>
    have ih := ih (fun k hk => hr k (by omega))
    simp only [State.loadWords]
    split
    · rw [State.x_setX_ne _ _ (hr n (by omega)), ih]
    · exact ih

theorem State.storeByte_eq (s : State) (a : Word) (b : Byte) :
    s.storeByte a b = { s with mem := (s.storeByte a b).mem, dirty := (s.storeByte a b).dirty } := rfl

/-- Storing bytes writes memory and `Dirty` only (R41). -/
theorem State.storeBytes_eq (s : State) (a : Word) (bs : List Byte) :
    s.storeBytes a bs = { s with mem := (s.storeBytes a bs).mem, dirty := (s.storeBytes a bs).dirty } := by
  induction bs generalizing s a with
  | nil => rfl
  | cons b bs ih => simp only [State.storeBytes]; rw [ih]; rfl

/-- stmw's transfers write memory and `Dirty` only (R142). -/
theorem State.storeWords_eq (s : State) (pick : Nat → Bool) (rs : Reg) (ea : Word) (n : Nat) :
    s.storeWords pick rs ea n =
      { s with mem := (s.storeWords pick rs ea n).mem, dirty := (s.storeWords pick rs ea n).dirty } := by
  induction n with
  | zero => rfl
  | succ n ih =>
    simp only [State.storeWords]
    split
    · rw [State.storeBytes_eq, ih]
    · exact ih

/-- The store strings' transfers write memory and `Dirty` only (R155). -/
theorem State.storeString_eq (s : State) (pick : Nat → Bool) (rs : Reg) (ea : Word) (n : Nat) :
    s.storeString pick rs ea n =
      { s with mem := (s.storeString pick rs ea n).mem, dirty := (s.storeString pick rs ea n).dirty } := by
  induction n with
  | zero => rfl
  | succ n ih =>
    simp only [State.storeString]
    split
    · rw [State.storeByte_eq, ih]
    · exact ih

/-- The load strings' transfers write registers only (R153). -/
theorem State.loadString_eq (s : State) (clear pick : Nat → Bool) (rt : Reg) (ea : Word) (n : Nat) :
    s.loadString clear pick rt ea n = { s with gpr := (s.loadString clear pick rt ea n).gpr } := by
  induction n with
  | zero => rfl
  | succ n ih =>
    simp only [State.loadString]
    have hclear : ∀ t : State, t = { s with gpr := t.gpr } →
        t.clearForByte rt n = { s with gpr := (t.clearForByte rt n).gpr } := by
      intro t ht
      unfold State.clearForByte
      split
      · rw [ht]; rfl
      · exact ht
    have hput : ∀ (t : State) (b : Byte), t = { s with gpr := t.gpr } →
        t.putStringByte rt n b = { s with gpr := (t.putStringByte rt n b).gpr } := by
      intro t b ht
      rw [ht]; rfl
    split
    · split
      · exact hput _ _ (hclear _ ih)
      · exact hput _ _ ih
    · split
      · exact hclear _ ih
      · exact ih

end Sys2Proof.Machine
end

