-- ==== Sys2Proof/Laws/PerInstr.lean ====
section
/-! SUPPORT. The per-instruction family `TableMatch`: the word of every instruction has the bits that the instruction's row
of spec/opcode_table.json fixes (its `mask` and `match`). -/

namespace Sys2Proof.Laws.TableMatch

/-- The `mask` of the instruction's row: the primary opcode of a D-form (R67), and the extended opcode and bit 31 of an
X-form (R68). -/
def mask : Instr → Word
  | .lbz .. | .lbzu .. | .lhz .. | .lhzu .. | .lha .. | .lhau .. | .lwz .. | .lwzu .. | .stb .. | .stbu .. |
  .sth .. | .sthu .. | .stw .. | .stwu .. | .lmw .. | .stmw .. => 0xFC000000#32
  | .lbzx .. | .lbzux .. | .lhzx .. | .lhzux .. | .lhax .. | .lhaux .. | .lwzx .. | .lwzux .. | .stbx .. |
  .stbux .. | .sthx .. | .sthux .. | .stwx .. | .stwux .. | .lhbrx .. | .lwbrx .. | .sthbrx .. | .stwbrx .. |
  .lswi .. | .lswx .. | .stswi .. | .stswx .. => 0xFC0007FF#32

/-- The `match` of the instruction's row (R67, R68). -/
def pattern : Instr → Word
  | .lbz .. => 0x88000000#32
  | .lbzx .. => 0x7C0000AE#32
  | .lbzu .. => 0x8C000000#32
  | .lbzux .. => 0x7C0000EE#32
  | .lhz .. => 0xA0000000#32
  | .lhzx .. => 0x7C00022E#32
  | .lhzu .. => 0xA4000000#32
  | .lhzux .. => 0x7C00026E#32
  | .lha .. => 0xA8000000#32
  | .lhax .. => 0x7C0002AE#32
  | .lhau .. => 0xAC000000#32
  | .lhaux .. => 0x7C0002EE#32
  | .lwz .. => 0x80000000#32
  | .lwzx .. => 0x7C00002E#32
  | .lwzu .. => 0x84000000#32
  | .lwzux .. => 0x7C00006E#32
  | .stb .. => 0x98000000#32
  | .stbx .. => 0x7C0001AE#32
  | .stbu .. => 0x9C000000#32
  | .stbux .. => 0x7C0001EE#32
  | .sth .. => 0xB0000000#32
  | .sthx .. => 0x7C00032E#32
  | .sthu .. => 0xB4000000#32
  | .sthux .. => 0x7C00036E#32
  | .stw .. => 0x90000000#32
  | .stwx .. => 0x7C00012E#32
  | .stwu .. => 0x94000000#32
  | .stwux .. => 0x7C00016E#32
  | .lhbrx .. => 0x7C00062C#32
  | .lwbrx .. => 0x7C00042C#32
  | .sthbrx .. => 0x7C00072C#32
  | .stwbrx .. => 0x7C00052C#32
  | .lmw .. => 0xB8000000#32
  | .stmw .. => 0xBC000000#32
  | .lswi .. => 0x7C0004AA#32
  | .lswx .. => 0x7C00042A#32
  | .stswi .. => 0x7C0005AA#32
  | .stswx .. => 0x7C00052A#32

/-- The bits of the word that the row's mask selects are the row's match. -/
def Statement (i : Instr) : Prop := encode i &&& mask i = pattern i

/-- The fixed bits of a D-form word. -/
def fixedD (op : Nat) : Word := BitVec.ofNat 6 op ++ 0#5 ++ 0#5 ++ 0#16

/-- The fixed bits of an X-form word. -/
def fixedX (xo : Nat) : Word := 31#6 ++ 0#5 ++ 0#5 ++ 0#5 ++ BitVec.ofNat 10 xo ++ 0#1

theorem encodeD_masked (op : Nat) (rt ra : Reg) (d : Imm) : encodeD op rt ra d &&& 0xFC000000#32 = fixedD op := by
  have h : (0xFC000000#32 : Word) = BitVec.allOnes 6 ++ 0#5 ++ 0#5 ++ 0#16 := by decide
  rw [h]
  show (BitVec.ofNat 6 op ++ rt ++ ra ++ d : BitVec (6 + 5 + 5 + 16)) &&& (BitVec.allOnes 6 ++ 0#5 ++ 0#5 ++ 0#16) = fixedD op
  rw [BitVec.and_append, BitVec.and_append, BitVec.and_append, BitVec.and_allOnes, BitVec.and_zero, BitVec.and_zero,
    BitVec.and_zero]
  rfl

theorem encodeX_masked (xo : Nat) (rt ra rb : Reg) : encodeX xo rt ra rb &&& 0xFC0007FF#32 = fixedX xo := by
  have h : (0xFC0007FF#32 : Word) = BitVec.allOnes 6 ++ 0#5 ++ 0#5 ++ 0#5 ++ BitVec.allOnes 10 ++ BitVec.allOnes 1 := by
    decide
  rw [h]
  show (31#6 ++ rt ++ ra ++ rb ++ BitVec.ofNat 10 xo ++ 0#1 : BitVec (6 + 5 + 5 + 5 + 10 + 1)) &&&
    (BitVec.allOnes 6 ++ 0#5 ++ 0#5 ++ 0#5 ++ BitVec.allOnes 10 ++ BitVec.allOnes 1) = fixedX xo
  rw [BitVec.and_append, BitVec.and_append, BitVec.and_append, BitVec.and_append, BitVec.and_append, BitVec.and_allOnes,
    BitVec.and_zero, BitVec.and_zero, BitVec.and_zero, BitVec.and_allOnes, BitVec.and_allOnes]
  rfl

theorem lbz (rt ra : Reg) (d : Imm) : Statement (.lbz rt ra d) :=
  (encodeD_masked _ rt ra d).trans (show fixedD 34 = 0x88000000#32 from by decide)
theorem lbzx (rt ra rb : Reg) : Statement (.lbzx rt ra rb) :=
  (encodeX_masked _ rt ra rb).trans (show fixedX 87 = 0x7C0000AE#32 from by decide)
theorem lbzu (rt ra : Reg) (d : Imm) : Statement (.lbzu rt ra d) :=
  (encodeD_masked _ rt ra d).trans (show fixedD 35 = 0x8C000000#32 from by decide)
theorem lbzux (rt ra rb : Reg) : Statement (.lbzux rt ra rb) :=
  (encodeX_masked _ rt ra rb).trans (show fixedX 119 = 0x7C0000EE#32 from by decide)
theorem lhz (rt ra : Reg) (d : Imm) : Statement (.lhz rt ra d) :=
  (encodeD_masked _ rt ra d).trans (show fixedD 40 = 0xA0000000#32 from by decide)
theorem lhzx (rt ra rb : Reg) : Statement (.lhzx rt ra rb) :=
  (encodeX_masked _ rt ra rb).trans (show fixedX 279 = 0x7C00022E#32 from by decide)
theorem lhzu (rt ra : Reg) (d : Imm) : Statement (.lhzu rt ra d) :=
  (encodeD_masked _ rt ra d).trans (show fixedD 41 = 0xA4000000#32 from by decide)
theorem lhzux (rt ra rb : Reg) : Statement (.lhzux rt ra rb) :=
  (encodeX_masked _ rt ra rb).trans (show fixedX 311 = 0x7C00026E#32 from by decide)
theorem lha (rt ra : Reg) (d : Imm) : Statement (.lha rt ra d) :=
  (encodeD_masked _ rt ra d).trans (show fixedD 42 = 0xA8000000#32 from by decide)
theorem lhax (rt ra rb : Reg) : Statement (.lhax rt ra rb) :=
  (encodeX_masked _ rt ra rb).trans (show fixedX 343 = 0x7C0002AE#32 from by decide)
theorem lhau (rt ra : Reg) (d : Imm) : Statement (.lhau rt ra d) :=
  (encodeD_masked _ rt ra d).trans (show fixedD 43 = 0xAC000000#32 from by decide)
theorem lhaux (rt ra rb : Reg) : Statement (.lhaux rt ra rb) :=
  (encodeX_masked _ rt ra rb).trans (show fixedX 375 = 0x7C0002EE#32 from by decide)
theorem lwz (rt ra : Reg) (d : Imm) : Statement (.lwz rt ra d) :=
  (encodeD_masked _ rt ra d).trans (show fixedD 32 = 0x80000000#32 from by decide)
theorem lwzx (rt ra rb : Reg) : Statement (.lwzx rt ra rb) :=
  (encodeX_masked _ rt ra rb).trans (show fixedX 23 = 0x7C00002E#32 from by decide)
theorem lwzu (rt ra : Reg) (d : Imm) : Statement (.lwzu rt ra d) :=
  (encodeD_masked _ rt ra d).trans (show fixedD 33 = 0x84000000#32 from by decide)
theorem lwzux (rt ra rb : Reg) : Statement (.lwzux rt ra rb) :=
  (encodeX_masked _ rt ra rb).trans (show fixedX 55 = 0x7C00006E#32 from by decide)
theorem stb (rs ra : Reg) (d : Imm) : Statement (.stb rs ra d) :=
  (encodeD_masked _ rs ra d).trans (show fixedD 38 = 0x98000000#32 from by decide)
theorem stbx (rs ra rb : Reg) : Statement (.stbx rs ra rb) :=
  (encodeX_masked _ rs ra rb).trans (show fixedX 215 = 0x7C0001AE#32 from by decide)
theorem stbu (rs ra : Reg) (d : Imm) : Statement (.stbu rs ra d) :=
  (encodeD_masked _ rs ra d).trans (show fixedD 39 = 0x9C000000#32 from by decide)
theorem stbux (rs ra rb : Reg) : Statement (.stbux rs ra rb) :=
  (encodeX_masked _ rs ra rb).trans (show fixedX 247 = 0x7C0001EE#32 from by decide)
theorem sth (rs ra : Reg) (d : Imm) : Statement (.sth rs ra d) :=
  (encodeD_masked _ rs ra d).trans (show fixedD 44 = 0xB0000000#32 from by decide)
theorem sthx (rs ra rb : Reg) : Statement (.sthx rs ra rb) :=
  (encodeX_masked _ rs ra rb).trans (show fixedX 407 = 0x7C00032E#32 from by decide)
theorem sthu (rs ra : Reg) (d : Imm) : Statement (.sthu rs ra d) :=
  (encodeD_masked _ rs ra d).trans (show fixedD 45 = 0xB4000000#32 from by decide)
theorem sthux (rs ra rb : Reg) : Statement (.sthux rs ra rb) :=
  (encodeX_masked _ rs ra rb).trans (show fixedX 439 = 0x7C00036E#32 from by decide)
theorem stw (rs ra : Reg) (d : Imm) : Statement (.stw rs ra d) :=
  (encodeD_masked _ rs ra d).trans (show fixedD 36 = 0x90000000#32 from by decide)
theorem stwx (rs ra rb : Reg) : Statement (.stwx rs ra rb) :=
  (encodeX_masked _ rs ra rb).trans (show fixedX 151 = 0x7C00012E#32 from by decide)
theorem stwu (rs ra : Reg) (d : Imm) : Statement (.stwu rs ra d) :=
  (encodeD_masked _ rs ra d).trans (show fixedD 37 = 0x94000000#32 from by decide)
theorem stwux (rs ra rb : Reg) : Statement (.stwux rs ra rb) :=
  (encodeX_masked _ rs ra rb).trans (show fixedX 183 = 0x7C00016E#32 from by decide)
theorem lhbrx (rt ra rb : Reg) : Statement (.lhbrx rt ra rb) :=
  (encodeX_masked _ rt ra rb).trans (show fixedX 790 = 0x7C00062C#32 from by decide)
theorem lwbrx (rt ra rb : Reg) : Statement (.lwbrx rt ra rb) :=
  (encodeX_masked _ rt ra rb).trans (show fixedX 534 = 0x7C00042C#32 from by decide)
theorem sthbrx (rs ra rb : Reg) : Statement (.sthbrx rs ra rb) :=
  (encodeX_masked _ rs ra rb).trans (show fixedX 918 = 0x7C00072C#32 from by decide)
theorem stwbrx (rs ra rb : Reg) : Statement (.stwbrx rs ra rb) :=
  (encodeX_masked _ rs ra rb).trans (show fixedX 662 = 0x7C00052C#32 from by decide)
theorem lmw (rt ra : Reg) (d : Imm) : Statement (.lmw rt ra d) :=
  (encodeD_masked _ rt ra d).trans (show fixedD 46 = 0xB8000000#32 from by decide)
theorem stmw (rs ra : Reg) (d : Imm) : Statement (.stmw rs ra d) :=
  (encodeD_masked _ rs ra d).trans (show fixedD 47 = 0xBC000000#32 from by decide)
theorem lswi (rt ra : Reg) (nb : Count) : Statement (.lswi rt ra nb) :=
  (encodeX_masked _ rt ra nb).trans (show fixedX 597 = 0x7C0004AA#32 from by decide)
theorem lswx (rt ra rb : Reg) : Statement (.lswx rt ra rb) :=
  (encodeX_masked _ rt ra rb).trans (show fixedX 533 = 0x7C00042A#32 from by decide)
theorem stswi (rs ra : Reg) (nb : Count) : Statement (.stswi rs ra nb) :=
  (encodeX_masked _ rs ra nb).trans (show fixedX 725 = 0x7C0005AA#32 from by decide)
theorem stswx (rs ra rb : Reg) : Statement (.stswx rs ra rb) :=
  (encodeX_masked _ rs ra rb).trans (show fixedX 661 = 0x7C00052A#32 from by decide)

end Sys2Proof.Laws.TableMatch
end

