-- ==== Sys2Proof/Laws/Step.lean ====
section
/-! SUPPORT. What one step can do, and what keeps the machine's invariant. -/

namespace Sys2Proof.Machine

/-- At an instruction of the program text with no byte in `Dirty`, the fetch gives the word there (R42, R56). -/
theorem State.fetch_eq_word {s : State} (h : s.isInsnAddr s.pc = true)
    (hd : ∀ k < 4, (addrPlus s.pc k).toNat ∉ s.dirty) : s.fetch = .word (s.wordAt s.pc) := by
  have hs : s.isStale s.pc = false := by
    simp only [State.isStale, List.any_eq_false, List.mem_range]
    intro k hk
    simpa using hd k hk
  simp [State.fetch, h, hs]

/-- A step that answers a next state starts with no fault record at an instruction of the program text, and records a
stale fetch, or records a word that does not decode, or is the instruction that the word at the pc decodes to (R24, R56,
R71, R170). -/
theorem step_cases {s t : State} (h : step s = .next t) :
    s.faultRecord = none ∧ s.isInsnAddr s.pc = true ∧
      ((s.isStale s.pc = true ∧ t = s.raiseStale) ∨
        (∃ e, decode (s.wordAt s.pc) = .error e ∧ t = s.raise (undecodedKind e) (s.wordAt s.pc)) ∨
        ∃ i, decode (s.wordAt s.pc) = .ok i ∧ exec i s = .next t) := by
  unfold step at h
  cases hf : s.faultRecord <;> simp only [hf] at h
  · have hfetch : s.fetch = if s.isInsnAddr s.pc then if s.isStale s.pc then .stale else .word (s.wordAt s.pc)
        else if s.textEnd = some s.pc then .ended else .outside := rfl
    rw [hfetch] at h
    by_cases hi : s.isInsnAddr s.pc = true
    · refine ⟨rfl, hi, ?_⟩
      by_cases hs : s.isStale s.pc = true
      · simp [hi, hs] at h
        exact Or.inl ⟨hs, h.symm⟩
      · simp [hi, hs] at h
        split at h
        · next e hd =>
          cases h
          exact Or.inr (Or.inl ⟨e, hd, rfl⟩)
        · next i hd => exact Or.inr (Or.inr ⟨i, hd, h⟩)
    · by_cases he : s.textEnd = some s.pc <;> simp [hi, he] at h
  · cases h

/-! ## The invariant -/

theorem State.inv_iff (s : State) :
    s.inv = true ↔ Memory.wf s.mem = true ∧ risingAddrs s.dirty = true ∧
      (∀ a ∈ s.dirty, a < 2 ^ 32 ∧ s.inCode (BitVec.ofNat 32 a) = true) ∧ s.pc.extractLsb' 0 2 = 0#2 ∧
      ∀ g ∈ s.codeRegion, g.base.extractLsb' 0 2 = 0#2 := by
  simp [State.inv, and_assoc]

/-- A stored byte keeps the invariant (R31, R40, R41). -/
theorem State.inv_storeByte {s : State} (h : s.inv = true) (a : Word) (b : Byte) : (s.storeByte a b).inv = true := by
  rw [State.inv_iff] at h ⊢
  obtain ⟨hm, hr, hd, hp, hc⟩ := h
  refine ⟨Memory.wf_write hm a.isLt b, ?_, ?_, hp, hc⟩
  · simp only [State.storeByte_dirty]
    split
    · exact rising_addAddr hr _
    · exact hr
  · intro c hmem
    simp only [State.storeByte_dirty] at hmem
    split at hmem
    · next hin =>
      rcases (mem_addAddr _ _ _).mp hmem with rfl | hmem
      · exact ⟨a.isLt, by simpa using hin⟩
      · exact hd c hmem
    · exact hd c hmem

theorem State.inv_storeBytes {s : State} (h : s.inv = true) (a : Word) (bs : List Byte) :
    (s.storeBytes a bs).inv = true := by
  induction bs generalizing s a with
  | nil => exact h
  | cons b bs ih => exact ih (State.inv_storeByte h a b) _

/-- The advance of the pc keeps the invariant (R23, R24). -/
theorem State.inv_advance {s : State} (h : s.inv = true) : s.advance.inv = true := by
  rw [State.inv_iff] at h ⊢
  obtain ⟨hm, hr, hd, hp, hc⟩ := h
  refine ⟨hm, hr, hd, ?_, hc⟩
  have := congrArg BitVec.toNat hp
  apply BitVec.eq_of_toNat_eq
  simp [BitVec.extractLsb'_toNat] at this ⊢
  omega

/-- The invariant does not depend on the registers, the special registers, the fault record or the free values. -/
theorem State.inv_congr {s t : State} (hm : t.mem = s.mem) (hd : t.dirty = s.dirty) (hp : t.pc = s.pc)
    (hc : t.codeRegion = s.codeRegion) : t.inv = s.inv := by
  simp [State.inv, State.inCode, hm, hd, hp, hc]

end Sys2Proof.Machine
end

