-- ==== Sys2Proof/Laws/Transfers.lean ====
section
/-! SUPPORT. The bytes that multiples and strings move: a store multiple or string is one store of a byte list, and what
each byte of a register of a load string's run holds. -/

namespace Sys2Proof.Machine

/-! ## Bytes of a register -/

theorem getLsbD_255 (m : Nat) : (255#32).getLsbD m = decide (m < 8) := by
  by_cases h : m < 32
  · interval_cases m <;> decide
  · simp [BitVec.getLsbD_of_ge _ _ (show 32 ≤ m by omega)]
    omega

/-- Putting a byte into a register changes that byte and no other (R152). -/
theorem regByte_withRegByte (w : Word) (b : Byte) {k c : Nat} (hk : k < 4) (hc : c < 4) :
    regByte (withRegByte w k b) c = if c = k then b else regByte w c := by
  unfold regByte withRegByte
  apply BitVec.eq_of_getLsbD_eq
  intro i hi
  simp only [BitVec.getLsbD_extractLsb', hi, decide_true, Bool.true_and, BitVec.getLsbD_or, BitVec.getLsbD_and,
    BitVec.getLsbD_not, BitVec.getLsbD_shiftLeft, getLsbD_255, BitVec.getLsbD_setWidth]
  have h32 : 24 - 8 * c + i < 32 := by omega
  by_cases hck : c = k
  · subst hck
    have h1 : ¬ (24 - 8 * c + i < 24 - 8 * c) := by omega
    have h2 : 24 - 8 * c + i - (24 - 8 * c) = i := by omega
    have h3 : i < 32 := by omega
    simp [h32, h1, h2, hi, h3]
  · rw [if_neg hck, BitVec.getLsbD_extractLsb']
    simp only [hi, decide_true, Bool.true_and]
    by_cases hlt : 24 - 8 * c + i < 24 - 8 * k
    · simp [h32, hlt]
    · have h4 : ¬ (24 - 8 * c + i - (24 - 8 * k) < 8) := by omega
      have h5 : b.getLsbD (24 - 8 * c + i - (24 - 8 * k)) = false := BitVec.getLsbD_of_ge _ _ (by omega)
      simp [h32, hlt, h4, h5]

@[simp] theorem regByte_zero (k : Nat) : regByte 0#32 k = 0#8 := by simp [regByte]

/-- The bytes of a word as they lie in memory are its register bytes in order (R41, R152). -/
theorem wordBytes_eq (w : Word) : wordBytes w = [regByte w 0, regByte w 1, regByte w 2, regByte w 3] := rfl

/-- A word is its four bytes, the most significant first (R41). -/
theorem regBytes_append (w : Word) : regByte w 0 ++ regByte w 1 ++ regByte w 2 ++ regByte w 3 = w := by
  unfold regByte
  apply BitVec.eq_of_getLsbD_eq
  intro i hi
  simp only [BitVec.getLsbD_append, BitVec.getLsbD_extractLsb']
  split
  · simp [*]
  · split
    · next h1 h2 =>
      have e : 24 - 8 * 2 + (i - 8) = i := by omega
      simp only [h2, decide_true, Bool.true_and, e]
    · split
      · next h1 h2 h3 =>
        have e : 24 - 8 * 1 + (i - 8 - 8) = i := by omega
        simp only [h3, decide_true, Bool.true_and, e]
      · next h1 h2 h3 =>
        have e : 24 - 8 * 0 + (i - 8 - 8 - 8) = i := by omega
        have h4 : i - 8 - 8 - 8 < 8 := by omega
        simp only [h4, decide_true, Bool.true_and, e]

/-- The bytes of a word read from memory (R41). -/
theorem State.regByte_wordAt (s : State) (a : Word) {k : Nat} (hk : k < 4) :
    regByte (s.wordAt a) k = s.byteAt (addrPlus a k) := by
  unfold regByte State.wordAt
  apply BitVec.eq_of_getLsbD_eq
  intro i hi
  interval_cases k <;>
    simp only [BitVec.getLsbD_append, BitVec.getLsbD_extractLsb', hi, decide_true, Bool.true_and, addrPlus_zero]
  · have h1 : ¬ (24 - 8 * 0 + i < 8) := by omega
    have h2 : ¬ (24 - 8 * 0 + i - 8 < 8) := by omega
    have h3 : ¬ (24 - 8 * 0 + i - 8 - 8 < 8) := by omega
    have h4 : 24 - 8 * 0 + i - 8 - 8 - 8 = i := by omega
    simp only [h1, h2, h3, h4, if_false]
  · have h1 : ¬ (24 - 8 * 1 + i < 8) := by omega
    have h2 : ¬ (24 - 8 * 1 + i - 8 < 8) := by omega
    have h3 : 24 - 8 * 1 + i - 8 - 8 < 8 := by omega
    have h4 : 24 - 8 * 1 + i - 8 - 8 = i := by omega
    simp only [h1, h2, h4, hi, if_false, if_true]
  · have h1 : ¬ (24 - 8 * 2 + i < 8) := by omega
    have h2 : 24 - 8 * 2 + i - 8 = i := by omega
    simp only [h1, h2, hi, if_false, if_true]
  · have h1 : 24 - 8 * 3 + i = i := by omega
    simp only [h1, hi, if_true]

/-- Two words with the same four bytes are equal. -/
theorem word_ext {v w : Word} (h : ∀ k < 4, regByte v k = regByte w k) : v = w := by
  rw [← regBytes_append v, ← regBytes_append w, h 0 (by omega), h 1 (by omega), h 2 (by omega), h 3 (by omega)]

/-! ## A store of a block is a store of a byte list -/

theorem State.storeBytes_append (s : State) (a : Word) (bs cs : List Byte) :
    s.storeBytes a (bs ++ cs) = (s.storeBytes a bs).storeBytes (addrPlus a bs.length) cs := by
  induction bs generalizing s a with
  | nil => simp [State.storeBytes, addrPlus_zero]
  | cons b bs ih =>
    simp only [List.cons_append, State.storeBytes, ih, addrPlus_addrPlus, List.length_cons, Nat.add_comm]

/-- A completed stswi or stswx stores the bytes of its run (R155, R156). -/
theorem State.storeString_all (s : State) (rs : Reg) (ea : Word) (n : Nat) :
    s.storeString (fun _ => true) rs ea n =
      s.storeBytes ea ((List.range n).map (fun j => regByte (s.x (runReg rs (j / 4))) (j % 4))) := by
  induction n with
  | zero => rfl
  | succ n ih =>
    simp [State.storeString, List.range_succ, State.storeBytes_append, ih, State.storeBytes]

/-- A completed stmw stores the bytes of its registers (R142). -/
theorem State.storeWords_all (s : State) (rs : Reg) (ea : Word) (n : Nat) :
    s.storeWords (fun _ => true) rs ea n =
      s.storeBytes ea ((List.range (4 * n)).map (fun j => regByte (s.x (runReg rs (j / 4))) (j % 4))) := by
  induction n with
  | zero => rfl
  | succ n ih =>
    have hr : List.range (4 * (n + 1)) = List.range (4 * n) ++ [4 * n, 4 * n + 1, 4 * n + 2, 4 * n + 3] := by
      rw [show 4 * (n + 1) = 4 * n + 1 + 1 + 1 + 1 by omega]
      simp [List.range_succ]
    have d1 : (4 * n) / 4 = n := by omega
    have d2 : (4 * n + 1) / 4 = n := by omega
    have d3 : (4 * n + 2) / 4 = n := by omega
    have d4 : (4 * n + 3) / 4 = n := by omega
    have m1 : (4 * n) % 4 = 0 := by omega
    have m2 : (4 * n + 1) % 4 = 1 := by omega
    have m3 : (4 * n + 2) % 4 = 2 := by omega
    have m4 : (4 * n + 3) % 4 = 3 := by omega
    rw [hr, List.map_append, State.storeBytes_append]
    simp only [State.storeWords, if_true, ih, wordBytes_eq, List.map_cons, List.map_nil, d1, d2, d3, d4, m1, m2, m3, m4,
      List.length_map, List.length_range]

/-- A part of a store string: each byte of the block is as before or, if picked, the byte of the run (R160). -/
theorem State.byteAt_storeString (s : State) (pick : Nat → Bool) (rs : Reg) (ea : Word) {n : Nat} (hn : n < 2 ^ 32)
    {j : Nat} (hj : j < n) :
    (s.storeString pick rs ea n).byteAt (addrPlus ea j) =
      if pick j then regByte (s.x (runReg rs (j / 4))) (j % 4) else s.byteAt (addrPlus ea j) := by
  have hout : ∀ (m : Nat) (a : Word), (∀ k < m, a ≠ addrPlus ea k) →
      (s.storeString pick rs ea m).byteAt a = s.byteAt a := by
    intro m a ha
    induction m with
    | zero => rfl
    | succ m ih =>
      have ih := ih (fun k hk => ha k (by omega))
      simp only [State.storeString]
      split
      · rw [State.byteAt_storeByte, if_neg (ha m (by omega)), ih]
      · exact ih
  induction n with
  | zero => omega
  | succ n ih =>
    simp only [State.storeString]
    rcases Nat.lt_succ_iff_lt_or_eq.mp hj with h | rfl
    · have hne : addrPlus ea j ≠ addrPlus ea n := fun e => by
        have := addrPlus_inj (by omega) (by omega) e
        omega
      split
      · rw [State.byteAt_storeByte, if_neg hne, ih (by omega) h]
      · exact ih (by omega) h
    · split
      · rw [State.byteAt_storeByte, if_pos rfl]
      · apply hout
        intro k hk e
        have := addrPlus_inj (by omega) (by omega) e
        omega

/-- A part of a store string leaves every byte outside the block alone (R160). -/
theorem State.byteAt_storeString_outside (s : State) (pick : Nat → Bool) (rs : Reg) (ea : Word) (n : Nat) {a : Word}
    (ha : ∀ k < n, a ≠ addrPlus ea k) : (s.storeString pick rs ea n).byteAt a = s.byteAt a := by
  induction n with
  | zero => rfl
  | succ n ih =>
    have ih := ih (fun k hk => ha k (by omega))
    simp only [State.storeString]
    split
    · rw [State.byteAt_storeByte, if_neg (ha n (by omega)), ih]
    · exact ih

/-- A part of a store multiple leaves every byte outside the block alone (R144). -/
theorem State.byteAt_storeWords_outside (s : State) (pick : Nat → Bool) (rs : Reg) (ea : Word) (n : Nat) {a : Word}
    (ha : ∀ k < 4 * n, a ≠ addrPlus ea k) : (s.storeWords pick rs ea n).byteAt a = s.byteAt a := by
  induction n with
  | zero => rfl
  | succ n ih =>
    have ih := ih (fun k hk => ha k (by omega))
    simp only [State.storeWords]
    split
    · rw [State.byteAt_storeBytes_of_outside, ih]
      intro k hk
      rw [addrPlus_addrPlus]
      exact ha _ (by simp [wordBytes] at hk; omega)
    · exact ih

/-- A part of a store multiple: each byte of word `j` is as before or, if the word is picked, that byte of its register
(R144). -/
theorem State.byteAt_storeWords (s : State) (pick : Nat → Bool) (rs : Reg) (ea : Word) {n : Nat} (hn : 4 * n < 2 ^ 32)
    {j b : Nat} (hj : j < n) (hb : b < 4) :
    (s.storeWords pick rs ea n).byteAt (addrPlus ea (4 * j + b)) =
      if pick j then regByte (s.x (runReg rs j)) b else s.byteAt (addrPlus ea (4 * j + b)) := by
  induction n with
  | zero => omega
  | succ n ih =>
    simp only [State.storeWords]
    rcases Nat.lt_succ_iff_lt_or_eq.mp hj with h | rfl
    · have hout : ∀ k < (wordBytes (s.x (runReg rs n))).length,
          addrPlus ea (4 * j + b) ≠ addrPlus (addrPlus ea (4 * n)) k := by
        intro k hk e
        rw [addrPlus_addrPlus] at e
        have hk : k < 4 := by simpa [wordBytes] using hk
        have := addrPlus_inj (by omega) (by omega) e
        omega
      split
      · rw [State.byteAt_storeBytes_of_outside _ _ _ _ hout, ih (by omega) h]
      · exact ih (by omega) h
    · split
      · next hp =>
        rw [← addrPlus_addrPlus, State.byteAt_storeBytes _ _ _ (by simp [wordBytes]) b (by simpa [wordBytes] using hb)]
        interval_cases b <;> rfl
      · apply State.byteAt_storeWords_outside
        intro k hk e
        have := addrPlus_inj (by omega) (by omega) e
        omega

/-! ## The run of a load string -/

theorem State.x_clearForByte (s : State) (rt : Reg) (j : Nat) (r : Reg) :
    (s.clearForByte rt j).x r = if j % 4 = 0 ∧ r = runReg rt (j / 4) then 0#32 else s.x r := by
  unfold State.clearForByte
  by_cases h : j % 4 = 0
  · simp [h, State.x_setX]
  · simp [h]

/-- A load string leaves every register outside its run alone (R152). -/
theorem State.x_loadString_outside (s : State) (clear pick : Nat → Bool) (rt : Reg) (ea : Word) (n : Nat) {r : Reg}
    (hr : ∀ k < (n + 3) / 4, r ≠ runReg rt k) : (s.loadString clear pick rt ea n).x r = s.x r := by
  induction n with
  | zero => rfl
  | succ n ih =>
    have ih := ih (fun k hk => hr k (by omega))
    have hne : r ≠ runReg rt (n / 4) := hr _ (by omega)
    have hu : (if clear n = true then (s.loadString clear pick rt ea n).clearForByte rt n
        else s.loadString clear pick rt ea n).x r = s.x r := by
      split
      · rw [State.x_clearForByte, if_neg (by tauto), ih]
      · exact ih
    simp only [State.loadString]
    split
    · rw [State.putStringByte, State.x_setX_ne _ _ hne, hu]
    · exact hu

/-- A load string of which some passes were done (R152, R160): byte `j` of the run is the byte of the string that belongs
there if it was transferred, else zero if its register was cleared, else what it was. -/
theorem State.regByte_loadString (s : State) (clear pick : Nat → Bool) (rt : Reg) (ea : Word) {n : Nat} (hn : n ≤ 128)
    {j : Nat} (hj : j < 128) :
    regByte ((s.loadString clear pick rt ea n).x (runReg rt (j / 4))) (j % 4) =
      if j < n ∧ pick j = true then s.byteAt (addrPlus ea j)
      else if 4 * (j / 4) < n ∧ clear (4 * (j / 4)) = true then 0#8
      else regByte (s.x (runReg rt (j / 4))) (j % 4) := by
  induction n with
  | zero => simp [State.loadString]
  | succ n ih =>
    have ih := ih (by omega)
    have hm : j % 4 < 4 := Nat.mod_lt _ (by omega)
    have hm' : n % 4 < 4 := Nat.mod_lt _ (by omega)
    simp only [State.loadString]
    generalize hu : (if clear n = true then (s.loadString clear pick rt ea n).clearForByte rt n
      else s.loadString clear pick rt ea n) = u
    have hux : u.x (runReg rt (j / 4)) = if clear n = true ∧ n % 4 = 0 ∧ j / 4 = n / 4 then 0#32
        else (s.loadString clear pick rt ea n).x (runReg rt (j / 4)) := by
      have hreg : runReg rt (j / 4) = runReg rt (n / 4) ↔ j / 4 = n / 4 :=
        ⟨fun e => runReg_inj (by omega) (by omega) e, fun e => by rw [e]⟩
      rw [← hu]
      by_cases hc : clear n = true
      · simp only [hc, if_true, true_and, State.x_clearForByte, hreg]
      · simp [hc]
    have hub : regByte (u.x (runReg rt (j / 4))) (j % 4) =
        if j < n ∧ pick j = true then s.byteAt (addrPlus ea j)
        else if 4 * (j / 4) < n + 1 ∧ clear (4 * (j / 4)) = true then 0#8
        else regByte (s.x (runReg rt (j / 4))) (j % 4) := by
      rw [hux]
      by_cases hz : n % 4 = 0 ∧ j / 4 = n / 4
      · have h4 : 4 * (j / 4) = n := by omega
        by_cases hc : clear n = true
        · rw [if_pos ⟨hc, hz⟩, if_neg (by omega), if_pos ⟨by omega, by rw [h4]; exact hc⟩, regByte_zero]
        · rw [if_neg (by tauto), ih, if_neg (by omega), if_neg (by omega), if_neg (by omega),
            if_neg (by rw [h4]; tauto)]
      · have h4 : 4 * (j / 4) < n ↔ 4 * (j / 4) < n + 1 := by omega
        rw [if_neg (by tauto), ih]
        simp only [h4]
    by_cases hp : pick n = true
    · rw [if_pos hp, State.putStringByte, State.x_setX]
      by_cases hq : j / 4 = n / 4
      · rw [if_pos (by rw [hq]), ← hq, regByte_withRegByte _ _ hm' hm]
        by_cases hc : j % 4 = n % 4
        · have : j = n := by omega
          subst this
          rw [if_pos rfl, if_pos ⟨by omega, hp⟩]
        · rw [if_neg hc, hub]
          have hjn : j < n ↔ j < n + 1 := by omega
          simp only [hjn]
      · have hne : runReg rt (j / 4) ≠ runReg rt (n / 4) := fun e => hq (runReg_inj (by omega) (by omega) e)
        rw [if_neg hne, hub]
        have hjn : j < n ↔ j < n + 1 := by omega
        simp only [hjn]
    · rw [if_neg hp, hub]
      have hjn : (j < n ∧ pick j = true) ↔ (j < n + 1 ∧ pick j = true) := by
        constructor
        · rintro ⟨h, hpj⟩
          exact ⟨by omega, hpj⟩
        · rintro ⟨h, hpj⟩
          have : j ≠ n := fun e => hp (e ▸ hpj)
          exact ⟨by omega, hpj⟩
      simp only [hjn]

/-- A completed load string (R152): byte `j` of the string is in its register, and the unfilled bytes of the last
register are zero. -/
theorem State.regByte_loadString_all (s : State) (rt : Reg) (ea : Word) {n : Nat} (hn : n ≤ 128) {j : Nat}
    (hj : j < 4 * ((n + 3) / 4)) :
    regByte ((s.loadString (fun _ => true) (fun _ => true) rt ea n).x (runReg rt (j / 4))) (j % 4) =
      if j < n then s.byteAt (addrPlus ea j) else 0#8 := by
  rw [State.regByte_loadString s _ _ rt ea hn (by omega)]
  by_cases h : j < n
  · simp [h]
  · have h4 : 4 * (j / 4) < n := by omega
    simp [h, h4]

/-- A load string clears a register only if it transferred an admitted byte into it (R160). -/
theorem State.pickClear_transfers {s : State} {ea : Word} {n j : Nat} (h : s.pickClear ea n j = true) :
    ∃ b < 4, j + b < n ∧ s.pickByte .load ea (j + b) = true := by
  simp only [State.pickClear, Bool.and_eq_true, List.any_eq_true, List.mem_range, decide_eq_true_eq] at h
  exact h.1

/-- A byte that was transferred is admitted (R160). -/
theorem State.pickByte_admits {s : State} {kind : AccessKind} {ea : Word} {j : Nat} (h : s.pickByte kind ea j = true) :
    s.admits kind (addrPlus ea j) = true := by
  simp only [State.pickByte, Bool.and_eq_true] at h
  exact h.1

/-- A word that was transferred is admitted whole (R144). -/
theorem State.pickWord_admits {s : State} {kind : AccessKind} {ea : Word} {j : Nat}
    (h : s.pickWord kind ea j = true) {b : Nat} (hb : b < 4) : s.admits kind (addrPlus ea (4 * j + b)) = true := by
  simp only [State.pickWord, Bool.and_eq_true, Option.isNone_iff_eq_none] at h
  rw [← addrPlus_addrPlus]
  exact (s.firstRejected_eq_none _ _ _).mp h.1 b hb

/-! ## `Dirty` after a part of a block was stored -/

/-- A store string of which some bytes were stored adds to `Dirty` those of them in the program text (R41, R56, R160). -/
theorem State.mem_dirty_storeString (s : State) (pick : Nat → Bool) (rs : Reg) (ea : Word) (n : Nat) (c : Nat) :
    c ∈ (s.storeString pick rs ea n).dirty ↔
      c ∈ s.dirty ∨ ∃ k < n, pick k = true ∧ s.inCode (addrPlus ea k) = true ∧ c = (addrPlus ea k).toNat := by
  induction n with
  | zero => simp [State.storeString]
  | succ n ih =>
    have hin : ∀ a, (s.storeString pick rs ea n).inCode a = s.inCode a := by
      intro a
      rw [State.storeString_eq]; rfl
    rw [Nat.exists_lt_succ_right]
    simp only [State.storeString]
    by_cases hp : pick n = true
    · rw [if_pos hp, State.storeByte_dirty, hin]
      split
      · next hc =>
        rw [mem_addAddr, ih, or_comm, or_assoc]
        simp only [hp, hc, true_and]
      · next hc =>
        rw [ih]
        simp only [hc, Bool.false_eq_true, false_and, and_false, or_false]
    · rw [if_neg hp, ih]
      simp only [hp, Bool.false_eq_true, false_and, or_false]

/-- A store multiple of which some words were stored adds to `Dirty` their bytes in the program text (R41, R56, R144). -/
theorem State.mem_dirty_storeWords (s : State) (pick : Nat → Bool) (rs : Reg) (ea : Word) (n : Nat) (c : Nat) :
    c ∈ (s.storeWords pick rs ea n).dirty ↔
      c ∈ s.dirty ∨ ∃ j < n, pick j = true ∧ ∃ b < 4, s.inCode (addrPlus ea (4 * j + b)) = true ∧
        c = (addrPlus ea (4 * j + b)).toNat := by
  induction n with
  | zero => simp [State.storeWords]
  | succ n ih =>
    have hin : ∀ a, (s.storeWords pick rs ea n).inCode a = s.inCode a := by
      intro a
      rw [State.storeWords_eq]; rfl
    rw [Nat.exists_lt_succ_right]
    simp only [State.storeWords]
    by_cases hp : pick n = true
    · rw [if_pos hp, State.mem_dirty_storeBytes, ih]
      simp only [hin, addrPlus_addrPlus, wordBytes_eq, List.length_cons, List.length_nil, hp, true_and, or_assoc]
    · rw [if_neg hp, ih]
      simp only [hp, Bool.false_eq_true, false_and, or_false]

/-- A register is in the run exactly when it is one of its registers (R152). -/
theorem inRun_iff (first r : Reg) {n : Nat} (hn : n ≤ 128) :
    inRun first n r = true ↔ ∃ k < (n + 3) / 4, r = runReg first k := by
  simp only [inRun, decide_eq_true_eq]
  constructor
  · intro h
    refine ⟨(r - first).toNat, h, ?_⟩
    rw [runReg, BitVec.ofNat_toNat, BitVec.setWidth_eq, BitVec.add_comm, BitVec.sub_add_cancel]
  · rintro ⟨k, hk, rfl⟩
    have : runReg first k - first = BitVec.ofNat 5 k := by
      simp [runReg, BitVec.add_comm first]
    rw [this, BitVec.toNat_ofNat, Nat.mod_eq_of_lt (by omega)]
    exact hk

theorem immediateCount_le (nb : Count) : immediateCount nb ≤ 32 := by
  unfold immediateCount
  split
  · omega
  · have := nb.isLt
    omega

theorem immediateCount_pos (nb : Count) : 1 ≤ immediateCount nb := by
  unfold immediateCount
  split
  · omega
  · next h =>
    have : nb.toNat ≠ 0 := fun e => h (BitVec.eq_of_toNat_eq e)
    omega

theorem State.xerByteCount_lt (s : State) : s.xerByteCount < 128 := (s.xer.extractLsb' 0 7).isLt

end Sys2Proof.Machine
end

