-- ==== Sys2Proof/Tests/Slice0.lean ====
section
/-! SUPPORT. Small tests: every check of well-formedness refuses an ill-formed term, every constructor's word of the spec
decodes to it, one or two vectors of the spec (95_test_vectors sections 2.1 to 2.6) for each instruction, and for every
statement with hypotheses a state and operands that meet them. -/

namespace Sys2Proof.Tests

open Sys2Proof.Machine Sys2Proof.Stated

/-! ## Well-formedness: a term that each check refuses (30_encoding R70; rows 3 and 5 are bit 31) -/

theorem test_wf_row1_load_update_rA_zero : (Instr.lwzu 3 0 0).wf = false := by decide
theorem test_wf_row1_load_update_rA_is_rD : (Instr.lbzux 3 3 5).wf = false := by decide
theorem test_wf_row2_store_update_rA_zero : (Instr.stwu 3 0 0).wf = false := by decide
theorem test_wf_row3_store_bit31 : decode 0x7C64292F#32 = .error (.invalidForm .storeRc) := by decide
theorem test_wf_row4_lmw_range : (Instr.lmw 29 30 0).wf = false ∧ (Instr.lmw 0 0 0).wf = false := by decide
theorem test_wf_row5_load_bit31 : decode 0x7C64282F#32 = .error (.invalidForm .loadRc) := by decide
theorem test_wf_row6_lswi_range : (Instr.lswi 5 6 8).wf = false ∧ (Instr.lswi 28 0 0).wf = false := by decide
theorem test_wf_row7_lswx_target : (Instr.lswx 5 5 4).wf = false ∧ (Instr.lswx 5 3 5).wf = false := by decide
theorem test_wf_accepts : (Instr.lwzux 3 4 3).wf = true ∧ (Instr.stwu 1 1 0xFFF0).wf = true ∧
    (Instr.lmw 29 28 0).wf = true ∧ (Instr.lswi 5 7 8).wf = true ∧ (Instr.stmw 31 31 0).wf = true := by decide

/-! ## Decoding: a word of the spec for every constructor (95_test_vectors sections 2.1 to 2.6) -/

theorem test_decode_integer_loads :
    decode 0x88640001#32 = .ok (.lbz 3 4 1) ∧
    decode 0x7C6428AE#32 = .ok (.lbzx 3 4 5) ∧
    decode 0x8C640003#32 = .ok (.lbzu 3 4 3) ∧
    decode 0x7C6428EE#32 = .ok (.lbzux 3 4 5) ∧
    decode 0xA0640000#32 = .ok (.lhz 3 4 0) ∧
    decode 0x7C642A2E#32 = .ok (.lhzx 3 4 5) ∧
    decode 0xA4640002#32 = .ok (.lhzu 3 4 2) ∧
    decode 0x7C642A6E#32 = .ok (.lhzux 3 4 5) ∧
    decode 0xA8640004#32 = .ok (.lha 3 4 4) ∧
    decode 0x7C642AAE#32 = .ok (.lhax 3 4 5) ∧
    decode 0xAC640002#32 = .ok (.lhau 3 4 2) ∧
    decode 0x7C642AEE#32 = .ok (.lhaux 3 4 5) ∧
    decode 0x8064FFFC#32 = .ok (.lwz 3 4 0xFFFC) ∧
    decode 0x7C64282E#32 = .ok (.lwzx 3 4 5) ∧
    decode 0x84640004#32 = .ok (.lwzu 3 4 4) ∧
    decode 0x7C64286E#32 = .ok (.lwzux 3 4 5) := by
  decide

theorem test_decode_integer_stores :
    decode 0x98640001#32 = .ok (.stb 3 4 1) ∧
    decode 0x7C6429AE#32 = .ok (.stbx 3 4 5) ∧
    decode 0x9C640002#32 = .ok (.stbu 3 4 2) ∧
    decode 0x7C6429EE#32 = .ok (.stbux 3 4 5) ∧
    decode 0xB0640002#32 = .ok (.sth 3 4 2) ∧
    decode 0x7C642B2E#32 = .ok (.sthx 3 4 5) ∧
    decode 0xB4640006#32 = .ok (.sthu 3 4 6) ∧
    decode 0x7C642B6E#32 = .ok (.sthux 3 4 5) ∧
    decode 0x90640008#32 = .ok (.stw 3 4 8) ∧
    decode 0x7C64292E#32 = .ok (.stwx 3 4 5) ∧
    decode 0x9421FFF0#32 = .ok (.stwu 1 1 0xFFF0) ∧
    decode 0x7C64296E#32 = .ok (.stwux 3 4 5) := by
  decide

theorem test_decode_byte_reverse :
    decode 0x7C642E2C#32 = .ok (.lhbrx 3 4 5) ∧
    decode 0x7C642C2C#32 = .ok (.lwbrx 3 4 5) ∧
    decode 0x7C642F2C#32 = .ok (.sthbrx 3 4 5) ∧
    decode 0x7C642D2C#32 = .ok (.stwbrx 3 4 5) := by
  decide

theorem test_decode_multiples :
    decode 0xBBA10004#32 = .ok (.lmw 29 1 4) ∧
    decode 0xBFA10004#32 = .ok (.stmw 29 1 4) := by
  decide

theorem test_decode_strings :
    decode 0x7FC374AA#32 = .ok (.lswi 30 3 14) ∧
    decode 0x7CA3242A#32 = .ok (.lswx 5 3 4) ∧
    decode 0x7CA43DAA#32 = .ok (.stswi 5 4 7) ∧
    decode 0x7CA3252A#32 = .ok (.stswx 5 3 4) := by
  decide

theorem test_decode_outside : decode 0x7C642214#32 = .error .notInScope ∧ decode 0x38600001#32 = .error .notInScope ∧
    decode 0xE8640000#32 = .error .notInScope ∧ decode 0x00000000#32 = .error .notInScope := by decide

/-- The words of a load, a store, a byte-reverse, a multiple and a string instruction, bit by bit: OPCD, RT, RA, D, or OPCD,
RT, RA, RB, XO, bit 31 (30_encoding R61, R62, R67, R68). -/
theorem test_decode_bit_by_bit :
    decode 0b10000000011001001111111111111100#32 = .ok (.lwz 3 4 0xFFFC) ∧
    decode 0b10010100001000011111111111110000#32 = .ok (.stwu 1 1 0xFFF0) ∧
    decode 0b01111100011001000010110000101100#32 = .ok (.lwbrx 3 4 5) ∧
    decode 0b10111011101000010000000000000100#32 = .ok (.lmw 29 1 4) ∧
    decode 0b01111111110000110111010010101010#32 = .ok (.lswi 30 3 14) := by decide

/-- The table's match values, with every operand field 0, through the host's entry point. -/
theorem test_decodeTableWord : decodeTableWord 32 0x80000000 = some (.lwz 0 0 0) ∧
    decodeTableWord 32 0x7C00072C = some (.sthbrx 0 0 0) ∧ decodeTableWord 32 0x8C000000 = some (.lbzu 0 0 0) ∧
    decodeTableWord 32 0x00000000 = none := by decide

/-! ## One step on a small state -/

/-- Image L of 95_test_vectors: `Mem[0x1000..0x100F]`. -/
def imageL : Memory :=
  [(0x1000, 0x81#8), (0x1001, 0x92#8), (0x1002, 0xA3#8), (0x1003, 0xB4#8), (0x1004, 0x05#8), (0x1005, 0x16#8),
   (0x1006, 0x27#8), (0x1007, 0x38#8), (0x1008, 0x49#8), (0x1009, 0x5A#8), (0x100A, 0x6B#8), (0x100B, 0x7C#8),
   (0x100C, 0x8D#8), (0x100D, 0x9E#8), (0x100E, 0xAF#8), (0x100F, 0xB0#8)]

/-- The state after reset with image L, `XER_BC` and some registers given. -/
def start (xerBC : Word) (regs : List (Reg × Word)) : State :=
  regs.foldl (fun s p => s.setX p.1 p.2) { State.reset with mem := imageL, xer := xerBC }

/-- One step with the word `w` placed at the pc. -/
def run (w : Nat) (s : State) : Result := step (s.withFetchWord 32 w)

/-- The step completed, the pc at the next word, the registers `rs` as given, the bytes `bs` at `a`. -/
def gives (o : Result) (rs : List (Reg × Word)) (a : Word) (bs : List Byte) : Bool :=
  match o with
  | .next t => t.faultRecord.isNone && t.pc == 0x104#32 && rs.all (fun p => t.x p.1 == p.2) &&
      (List.range bs.length).map (fun k => t.byteAt (addrPlus a k)) == bs
  | _ => false

/-- The step recorded this event, at the pc of the instruction, the registers `rs` as given. -/
def records (o : Result) (e : FaultKind) (rs : List (Reg × Word)) : Bool :=
  match o with
  | .next t => t.faultRecord.map (·.kind) == some e && t.pc == 0x100#32 && rs.all (fun p => t.x p.1 == p.2)
  | _ => false

theorem test_lbz : gives (run 0x88640001 (start 0#32 [(4, 0x1000#32)])) [(3, 0x92#32)] 0#32 [] = true := by decide
theorem test_lbz_most_negative_d : gives (run 0x88648000 (start 0#32 [(4, 0x9001#32)])) [(3, 0x92#32)] 0#32 [] = true := by decide
theorem test_lbzx : gives (run 0x7C6428AE (start 0#32 [(4, 0x1000#32), (5, 2#32)])) [(3, 0xA3#32)] 0#32 [] = true := by decide
theorem test_lbzu : gives (run 0x8C640003 (start 0#32 [(4, 0x1000#32)])) [(3, 0xB4#32), (4, 0x1003#32)] 0#32 [] = true := by decide
theorem test_lbzux : gives (run 0x7C6428EE (start 0#32 [(4, 0x1000#32), (5, 4#32)])) [(3, 5#32), (4, 0x1004#32)] 0#32 [] = true := by decide
theorem test_lbzux_rA_is_rD : records (run 0x7C6328EE (start 0#32 [(4, 0x1000#32), (5, 4#32)])) (.invalidForm .loadUpdate) [(4, 0x1000#32)] = true := by
  decide
theorem test_lhz : gives (run 0xA0640000 (start 0#32 [(4, 0x1000#32)])) [(3, 0x8192#32)] 0#32 [] = true := by decide
theorem test_lhz_wraps : gives (run 0xA064FFFF (start 0#32 [])) [(3, 0#32)] 0#32 [] = true := by decide
theorem test_lhzx : gives (run 0x7C642A2E (start 0#32 [(4, 0x1000#32), (5, 2#32)])) [(3, 0xA3B4#32)] 0#32 [] = true := by decide
theorem test_lhzu : gives (run 0xA4640002 (start 0#32 [(4, 0x1000#32)])) [(3, 0xA3B4#32), (4, 0x1002#32)] 0#32 [] = true := by decide
theorem test_lhzux : gives (run 0x7C642A6E (start 0#32 [(4, 0x1000#32), (5, 6#32)])) [(3, 0x2738#32), (4, 0x1006#32)] 0#32 [] = true := by decide
theorem test_lha_negative : gives (run 0xA8640000 (start 0#32 [(4, 0x1000#32)])) [(3, 0xFFFF8192#32)] 0#32 [] = true := by decide
theorem test_lha_positive : gives (run 0xA8640004 (start 0#32 [(4, 0x1000#32)])) [(3, 0x516#32)] 0#32 [] = true := by decide
theorem test_lhax : gives (run 0x7C642AAE (start 0#32 [(4, 0x1000#32), (5, 2#32)])) [(3, 0xFFFFA3B4#32)] 0#32 [] = true := by decide
theorem test_lhau : gives (run 0xAC640002 (start 0#32 [(4, 0x1000#32)])) [(3, 0xFFFFA3B4#32), (4, 0x1002#32)] 0#32 [] = true := by decide
theorem test_lhaux : gives (run 0x7C642AEE (start 0#32 [(4, 0x1000#32), (5, 4#32)])) [(3, 0x516#32), (4, 0x1004#32)] 0#32 [] = true := by decide
theorem test_lhaux_rA_zero : records (run 0x7C602AEE (start 0#32 [(4, 0x1000#32), (5, 4#32)])) (.invalidForm .loadUpdate) [] = true := by
  decide
theorem test_lwz_negative_d : gives (run 0x8064FFFC (start 0#32 [(4, 0x1008#32)])) [(3, 0x05162738#32)] 0#32 [] = true := by decide
theorem test_lwz_misaligned : gives (run 0x80640001 (start 0#32 [(4, 0x1000#32)])) [(3, 0x92A3B405#32)] 0#32 [] = true := by decide
theorem test_lwzx_base_zero_index_r0 : gives (run 0x7C60002E (start 0#32 [(0, 0x1004#32)])) [(3, 0x05162738#32)] 0#32 [] = true := by decide
theorem test_lwzu : gives (run 0x84640004 (start 0#32 [(4, 0x1000#32)])) [(3, 0x05162738#32), (4, 0x1004#32)] 0#32 [] = true := by decide
theorem test_lwzu_rA_is_rD : records (run 0x84840000 (start 0#32 [(4, 0x1000#32)])) (.invalidForm .loadUpdate) [(4, 0x1000#32)] = true := by
  decide
theorem test_lwzux_rD_is_rB : gives (run 0x7C64186E (start 0#32 [(3, 8#32), (4, 0xFFC#32)])) [(3, 0x05162738#32), (4, 0x1004#32)] 0#32 [] = true := by decide
theorem test_stb : gives (run 0x98640001 (start 0#32 [(3, 0xDEADBEEF#32), (4, 0x2000#32)])) [] 0x2001#32
    [0xEF#8] = true := by decide
theorem test_stb_wraps : gives (run 0x9864FFFF (start 0#32 [(3, 0xDEADBEEF#32)])) [] 0xFFFFFFFF#32
    [0xEF#8] = true := by decide
theorem test_stbx : gives (run 0x7C6429AE (start 0#32 [(3, 0xDEADBEEF#32), (4, 0x2000#32), (5, 4#32)])) [] 0x2004#32
    [0xEF#8] = true := by decide
theorem test_stbu : gives (run 0x9C640002 (start 0#32 [(3, 0xDEADBEEF#32), (4, 0x2000#32)])) [(4, 0x2002#32)] 0x2001#32
    [0x00#8, 0xEF#8, 0x00#8] = true := by decide
theorem test_stbux_rB_is_rA : gives (run 0x7C6421EE (start 0#32 [(3, 0xDEADBEEF#32), (4, 0x1000#32)])) [(4, 0x2000#32)] 0x2000#32
    [0xEF#8] = true := by decide
theorem test_sth : gives (run 0xB0640002 (start 0#32 [(3, 0xDEADBEEF#32), (4, 0x2000#32)])) [] 0x2001#32
    [0x00#8, 0xBE#8, 0xEF#8, 0x00#8] = true := by decide
theorem test_sthx : gives (run 0x7C642B2E (start 0#32 [(3, 0xDEADBEEF#32), (4, 0x2000#32), (5, 4#32)])) [] 0x2004#32
    [0xBE#8, 0xEF#8] = true := by decide
theorem test_sthu : gives (run 0xB4640006 (start 0#32 [(3, 0xDEADBEEF#32), (4, 0x2000#32)])) [(4, 0x2006#32)] 0x2006#32
    [0xBE#8, 0xEF#8] = true := by decide
theorem test_sthux : gives (run 0x7C642B6E (start 0#32 [(3, 0xDEADBEEF#32), (4, 0x2000#32), (5, 4#32)])) [(4, 0x2004#32)] 0x2004#32
    [0xBE#8, 0xEF#8] = true := by decide
theorem test_sthux_rA_zero : records (run 0x7C602B6E (start 0#32 [(4, 0x1000#32), (5, 4#32)])) (.invalidForm .storeUpdate) [] = true := by
  decide
theorem test_stw : gives (run 0x90640008 (start 0#32 [(3, 0xDEADBEEF#32), (4, 0x2000#32)])) [] 0x2007#32
    [0x00#8, 0xDE#8, 0xAD#8, 0xBE#8, 0xEF#8, 0x00#8] = true := by decide
theorem test_stw_wraps : gives (run 0x9064FFFE (start 0#32 [(3, 0xA1B2C3D4#32)])) [] 0xFFFFFFFE#32
    [0xA1#8, 0xB2#8, 0xC3#8, 0xD4#8] = true := by decide
theorem test_stwx : gives (run 0x7C64292E (start 0#32 [(3, 0xDEADBEEF#32), (4, 0x2000#32), (5, 4#32)])) [] 0x2004#32
    [0xDE#8, 0xAD#8, 0xBE#8, 0xEF#8] = true := by decide
theorem test_stwu_rS_is_rA : gives (run 0x9421FFF0 (start 0#32 [(1, 0x2010#32)])) [(1, 0x2000#32)] 0x2000#32
    [0x00#8, 0x00#8, 0x20#8, 0x10#8] = true := by decide
theorem test_stwu_rA_zero : records (run 0x94600000 (start 0#32 [(3, 0xDEADBEEF#32)])) (.invalidForm .storeUpdate) [] = true := by
  decide
theorem test_stwux_rS_is_rA : gives (run 0x7C84296E (start 0#32 [(4, 0x2000#32), (5, 4#32)])) [(4, 0x2004#32)] 0x2004#32
    [0x00#8, 0x00#8, 0x20#8, 0x00#8] = true := by decide
theorem test_lhbrx : gives (run 0x7C642E2C (start 0#32 [(4, 0x1000#32), (5, 2#32)])) [(3, 0xB4A3#32)] 0#32 [] = true := by decide
theorem test_lhbrx_zero_extends : gives (run 0x7C60262C (start 0#32 [(4, 0x1000#32)])) [(3, 0x9281#32)] 0#32 [] = true := by decide
theorem test_lwbrx : gives (run 0x7C642C2C (start 0#32 [(4, 0x1000#32), (5, 4#32)])) [(3, 0x38271605#32)] 0#32 [] = true := by decide
theorem test_lwbrx_rD_is_rA : gives (run 0x7C842C2C (start 0#32 [(4, 0x1000#32), (5, 0#32)])) [(4, 0xB4A39281#32)] 0#32 [] = true := by decide
theorem test_sthbrx : gives (run 0x7C642F2C (start 0#32 [(3, 0xDEADBEEF#32), (4, 0x2000#32), (5, 2#32)])) [] 0x2001#32
    [0x00#8, 0xEF#8, 0xBE#8, 0x00#8] = true := by decide
theorem test_stwbrx : gives (run 0x7C642D2C (start 0#32 [(3, 0xDEADBEEF#32), (4, 0x2000#32), (5, 4#32)])) [] 0x2003#32
    [0x00#8, 0xEF#8, 0xBE#8, 0xAD#8, 0xDE#8, 0x00#8] = true := by decide
theorem test_lmw : gives (run 0xBBA10004 (start 0#32 [(1, 0x1000#32)])) [(29, 0x05162738#32), (30, 0x495A6B7C#32), (31, 0x8D9EAFB0#32)] 0#32 [] = true := by decide
theorem test_lmw_misaligned : records (run 0xBBA10002 (start 0#32 [(1, 0x1000#32)])) (.alignment 0x1002#32 .load) [(29, 0#32)] = true := by
  decide
theorem test_stmw : gives (run 0xBFDFFFF8 (start 0#32 [(30, 0xAABBCCDD#32), (31, 0x2010#32)])) [] 0x2008#32
    [0xAA#8, 0xBB#8, 0xCC#8, 0xDD#8, 0x00#8, 0x00#8, 0x20#8, 0x10#8] = true := by decide
theorem test_stmw_misaligned : records (run 0xBFC10001 (start 0#32 [(1, 0x2000#32)])) (.alignment 0x2001#32 .store) [] = true := by
  decide
theorem test_lswi_wraps_to_gpr0 : gives (run 0x7FC374AA (start 0#32 [(3, 0x1000#32)])) [(30, 0x8192A3B4#32), (31, 0x05162738#32), (0, 0x495A6B7C#32), (1, 0x8D9E0000#32)] 0#32 [] = true := by decide
theorem test_lswi_part_of_a_word : gives (run 0x7CA30CAA (start 0#32 [(3, 0x1001#32), (5, 0xFFFFFFFF#32)])) [(5, 0x92000000#32)] 0#32 [] = true := by decide
theorem test_lswx : gives (run 0x7CA3242A (start 5#32 [(3, 0x1000#32), (4, 1#32)])) [(5, 0x92A3B405#32), (6, 0x16000000#32)] 0#32 [] = true := by decide
theorem test_lswx_index_in_run : records (run 0x7CA3342A (start 8#32 [(3, 0x1000#32), (6, 0#32)])) (.refused .lswxRange) [(3, 0x1000#32)] = true := by
  decide
theorem test_stswi : gives (run 0x7CA43DAA (start 0#32 [(4, 0x2001#32), (5, 0x01020304#32), (6, 0x05060708#32)])) [] 0x2001#32
    [0x01#8, 0x02#8, 0x03#8, 0x04#8, 0x05#8, 0x06#8, 0x07#8, 0x00#8] = true := by decide
theorem test_stswi_wraps_to_gpr0 : gives (run 0x7FE435AA (start 0#32 [(4, 0x2000#32), (31, 0xA1A2A3A4#32), (0, 0xB1B2B3B4#32)])) [] 0x2000#32
    [0xA1#8, 0xA2#8, 0xA3#8, 0xA4#8, 0xB1#8, 0xB2#8, 0x00#8] = true := by decide
theorem test_stswx : gives (run 0x7CA3252A (start 5#32 [(3, 0x2000#32), (4, 3#32), (5, 0x01020304#32), (6, 0x05060708#32)])) [] 0x2003#32
    [0x01#8, 0x02#8, 0x03#8, 0x04#8, 0x05#8, 0x00#8] = true := by decide
theorem test_stswx_count_zero : gives (run 0x7CA3252A (start 0#32 [(3, 0x2000#32), (5, 0x01020304#32)])) [] 0x2000#32
    [0x00#8] = true := by decide

/-! ## States and operands that meet the hypotheses of the statements -/

/-- One instruction word in the program text at the pc, GPR4 as given, page 5 closed to loads and stores. -/
def site (base : Word) (rules : List AlignRule) (alignFirst : Bool) : State :=
  ({ State.reset with mem := imageL, noLoad := [5#20], noStore := [5#20], alignRules := rules,
                      alignBeforeDSI := alignFirst, codeRegion := [⟨0x100#32, 1⟩] } : State).setX 4 base

/-- The rule that asks for an Alignment exception on every word at every misaligned address. -/
def everywhere : AlignRule := ⟨0#32, 0#32, 0#32, 0#32⟩

/-- `Admitted` as a Bool. -/
def admitted (s : State) (kind : AccessKind) (a : Word) (n : Nat) : Bool :=
  (List.range n).all (fun k => s.admits kind (addrPlus a k))

/-- `RejectedAt` as a Bool. -/
def rejectedAt (s : State) (kind : AccessKind) (a : Word) (n k : Nat) : Bool :=
  k < n && !s.admits kind (addrPlus a k) && admitted s kind a k

theorem admitted_iff (s : State) (kind : AccessKind) (a : Word) (n : Nat) :
    admitted s kind a n = true ↔ Admitted s kind a n := by
  simp [admitted, Admitted]

theorem rejectedAt_iff (s : State) (kind : AccessKind) (a : Word) (n k : Nat) :
    rejectedAt s kind a n k = true ↔ RejectedAt s kind a n k := by
  simp [rejectedAt, RejectedAt, admitted_iff, and_assoc]

/-- The hypotheses of each clause of `LoadRule`, `StoreRule` and their update forms are met: an access that completes,
aligned, misaligned and (but for the byte) wrapping past 2^32; a DSI on the first byte, also before Alignment; and, where
the access is wider than a byte (a byte access is never misaligned, R46), a DSI on the second byte past a page boundary,
and Alignment alone and before a DSI. -/
def Met (i : Instr) (ea : State → Word) (n : Nat) (kind : AccessKind) : Prop :=
  (∀ b ∈ [0x1000#32, 0x1001#32, 0xFFFFFFFF#32], Admitted (site b [] true) kind (ea (site b [] true)) n ∧
      (site b [] true).alignTrap i (ea (site b [] true)) n = false) ∧
    (RejectedAt (site 0x5000#32 [] true) kind (ea (site 0x5000#32 [] true)) n 0 ∧
      (site 0x5000#32 [] true).alignTrap i (ea (site 0x5000#32 [] true)) n = false) ∧
    (RejectedAt (site 0x5FFF#32 [everywhere] false) kind (ea (site 0x5FFF#32 [everywhere] false)) n 0 ∧
      (site 0x5FFF#32 [everywhere] false).alignBeforeDSI = false) ∧
    (n ≠ 1 →
      (RejectedAt (site 0x4FFF#32 [] true) kind (ea (site 0x4FFF#32 [] true)) n 1 ∧
        (site 0x4FFF#32 [] true).alignTrap i (ea (site 0x4FFF#32 [] true)) n = false) ∧
      (Admitted (site 0x1001#32 [everywhere] false) kind (ea (site 0x1001#32 [everywhere] false)) n ∧
        (site 0x1001#32 [everywhere] false).alignTrap i (ea (site 0x1001#32 [everywhere] false)) n = true) ∧
      (site 0x5001#32 [everywhere] true).alignTrap i (ea (site 0x5001#32 [everywhere] true)) n = true ∧
        (site 0x5001#32 [everywhere] true).alignBeforeDSI = true)

/-- `Met` as a Bool. -/
def met (i : Instr) (ea : State → Word) (n : Nat) (kind : AccessKind) : Bool :=
  [0x1000#32, 0x1001#32, 0xFFFFFFFF#32].all (fun b => admitted (site b [] true) kind (ea (site b [] true)) n &&
      !(site b [] true).alignTrap i (ea (site b [] true)) n) &&
    (rejectedAt (site 0x5000#32 [] true) kind (ea (site 0x5000#32 [] true)) n 0 &&
      !(site 0x5000#32 [] true).alignTrap i (ea (site 0x5000#32 [] true)) n) &&
    rejectedAt (site 0x5FFF#32 [everywhere] false) kind (ea (site 0x5FFF#32 [everywhere] false)) n 0 &&
    (n == 1 ||
      (rejectedAt (site 0x4FFF#32 [] true) kind (ea (site 0x4FFF#32 [] true)) n 1 &&
        !(site 0x4FFF#32 [] true).alignTrap i (ea (site 0x4FFF#32 [] true)) n) &&
      (admitted (site 0x1001#32 [everywhere] false) kind (ea (site 0x1001#32 [everywhere] false)) n &&
        (site 0x1001#32 [everywhere] false).alignTrap i (ea (site 0x1001#32 [everywhere] false)) n) &&
      (site 0x5001#32 [everywhere] true).alignTrap i (ea (site 0x5001#32 [everywhere] true)) n)

theorem met_iff {i : Instr} {ea : State → Word} {n : Nat} {kind : AccessKind} (h : met i ea n kind = true) :
    Met i ea n kind := by
  simp only [met, Bool.and_eq_true, Bool.or_eq_true, Bool.not_eq_true', beq_iff_eq, List.all_eq_true, admitted_iff,
    rejectedAt_iff] at h
  obtain ⟨⟨⟨h1, h2⟩, h3⟩, h4⟩ := h
  refine ⟨h1, h2, ⟨h3, rfl⟩, fun hn => ?_⟩
  rcases h4 with h4 | ⟨⟨h4, h5⟩, h6⟩
  · exact absurd h4 hn
  · exact ⟨h4, h5, h6, rfl⟩

theorem witness_ByteLoadsZeroExtend :
    Met (.lbz 3 4 0) (·.eaImm 4 0) 1 .load ∧
    Met (.lbzx 3 4 5) (·.eaIdx 4 5) 1 .load := by
  exact ⟨met_iff (by decide), met_iff (by decide)⟩

theorem witness_HalfLoadsZeroAndSignExtend :
    Met (.lhz 3 4 0) (·.eaImm 4 0) 2 .load ∧
    Met (.lhzx 3 4 5) (·.eaIdx 4 5) 2 .load ∧
    Met (.lha 3 4 0) (·.eaImm 4 0) 2 .load ∧
    Met (.lhax 3 4 5) (·.eaIdx 4 5) 2 .load := by
  exact ⟨met_iff (by decide), met_iff (by decide), met_iff (by decide), met_iff (by decide)⟩

theorem witness_WordLoads :
    Met (.lwz 3 4 0) (·.eaImm 4 0) 4 .load ∧
    Met (.lwzx 3 4 5) (·.eaIdx 4 5) 4 .load := by
  exact ⟨met_iff (by decide), met_iff (by decide)⟩

theorem witness_ByteLoadsWithUpdate :
    Met (.lbzu 3 4 0) (·.eaImmU 4 0) 1 .load ∧
    Met (.lbzux 3 4 5) (·.eaIdxU 4 5) 1 .load := by
  exact ⟨met_iff (by decide), met_iff (by decide)⟩

theorem witness_HalfLoadsWithUpdate :
    Met (.lhzu 3 4 0) (·.eaImmU 4 0) 2 .load ∧
    Met (.lhzux 3 4 5) (·.eaIdxU 4 5) 2 .load ∧
    Met (.lhau 3 4 0) (·.eaImmU 4 0) 2 .load ∧
    Met (.lhaux 3 4 5) (·.eaIdxU 4 5) 2 .load := by
  exact ⟨met_iff (by decide), met_iff (by decide), met_iff (by decide), met_iff (by decide)⟩

theorem witness_WordLoadsWithUpdate :
    Met (.lwzu 3 4 0) (·.eaImmU 4 0) 4 .load ∧
    Met (.lwzux 3 4 5) (·.eaIdxU 4 5) 4 .load := by
  exact ⟨met_iff (by decide), met_iff (by decide)⟩

theorem witness_ByteStores :
    Met (.stb 3 4 0) (·.eaImm 4 0) 1 .store ∧
    Met (.stbx 3 4 5) (·.eaIdx 4 5) 1 .store := by
  exact ⟨met_iff (by decide), met_iff (by decide)⟩

theorem witness_HalfStores :
    Met (.sth 3 4 0) (·.eaImm 4 0) 2 .store ∧
    Met (.sthx 3 4 5) (·.eaIdx 4 5) 2 .store := by
  exact ⟨met_iff (by decide), met_iff (by decide)⟩

theorem witness_WordStores :
    Met (.stw 3 4 0) (·.eaImm 4 0) 4 .store ∧
    Met (.stwx 3 4 5) (·.eaIdx 4 5) 4 .store := by
  exact ⟨met_iff (by decide), met_iff (by decide)⟩

theorem witness_ByteStoresWithUpdate :
    Met (.stbu 3 4 0) (·.eaImmU 4 0) 1 .store ∧
    Met (.stbux 3 4 5) (·.eaIdxU 4 5) 1 .store := by
  exact ⟨met_iff (by decide), met_iff (by decide)⟩

theorem witness_HalfStoresWithUpdate :
    Met (.sthu 3 4 0) (·.eaImmU 4 0) 2 .store ∧
    Met (.sthux 3 4 5) (·.eaIdxU 4 5) 2 .store := by
  exact ⟨met_iff (by decide), met_iff (by decide)⟩

theorem witness_WordStoresWithUpdate :
    Met (.stwu 3 4 0) (·.eaImmU 4 0) 4 .store ∧
    Met (.stwux 3 4 5) (·.eaIdxU 4 5) 4 .store := by
  exact ⟨met_iff (by decide), met_iff (by decide)⟩

theorem witness_ByteReverseLoads :
    Met (.lhbrx 3 4 5) (·.eaIdx 4 5) 2 .load ∧
    Met (.lwbrx 3 4 5) (·.eaIdx 4 5) 4 .load := by
  exact ⟨met_iff (by decide), met_iff (by decide)⟩

theorem witness_ByteReverseStores :
    Met (.sthbrx 3 4 5) (·.eaIdx 4 5) 2 .store ∧
    Met (.stwbrx 3 4 5) (·.eaIdx 4 5) 4 .store := by
  exact ⟨met_iff (by decide), met_iff (by decide)⟩

/-- The first rejected byte is the third of the operand (95_test_vectors section 2.1, the DSI rows). -/
theorem test_lwzx_dsi :
    records (run 0x7C64282E (site 0x4FFE#32 [] true)) (.dsi 0x5000#32 .load) [(3, 0#32), (4, 0x4FFE#32)] = true := by decide

theorem test_stwx_dsi :
    records (run 0x7C64292E (site 0x5000#32 [] true)) (.dsi 0x5000#32 .store) [(4, 0x5000#32)] = true := by decide

/-- A trapping misaligned load and store (95_test_vectors section 2.1, 2.2, the MISALIGNED rows). -/
theorem test_lhzx_alignment :
    records (run 0x7C642A2E (site 0x1001#32 [everywhere] true)) (.alignment 0x1001#32 .load) [(3, 0#32)] = true := by decide

theorem test_sthx_alignment :
    records (run 0x7C642B2E (site 0x2001#32 [everywhere] true)) (.alignment 0x2001#32 .store) [] = true := by decide

/-- The operand clauses of the update forms: rA = 0, rA = rD, and neither. -/
theorem witness_update_operands : ((0#5 : Reg) = 0#5 ∨ (0#5 : Reg) = 3#5) ∧ ((3#5 : Reg) = 0#5 ∨ (3#5 : Reg) = 3#5) ∧
    (4#5 : Reg) ≠ 0#5 ∧ (4#5 : Reg) ≠ 3#5 := by decide

theorem witness_DecodeOfEncodeIsTheInstruction : (Instr.lbzu 31 1 0xFFFF).wf = true := by decide

theorem witness_EncodeOfDecodeIsTheWord : decode 0x7C642C2C#32 = .ok (.lwbrx 3 4 5) := by decide

theorem witness_DecodeIsTotalByOpcodeMaps :
    (32 ≤ fieldOpcd 0x8064FFFC#32 ∧ fieldOpcd 0x8064FFFC#32 ≤ 47) ∧
    (32 ≤ fieldOpcd 0xBFA10004#32 ∧ fieldOpcd 0xBFA10004#32 ≤ 47) ∧
    (fieldOpcd 0x7C64282E#32 = 31 ∧ fieldXo 0x7C64282E#32 ∈ knownXo ∧ fieldRc 0x7C64282E#32 = false) ∧
    (fieldOpcd 0x7C64282F#32 = 31 ∧ fieldXo 0x7C64282F#32 ∈ knownXo ∧ fieldRc 0x7C64282F#32 = true) ∧
    (∀ w ∈ [0x38600001#32, 0xC0000000#32, 0x7C642214#32],
      ¬(32 ≤ fieldOpcd w ∧ fieldOpcd w ≤ 47) ∧ ¬(fieldOpcd w = 31 ∧ fieldXo w ∈ knownXo)) ∧
    decode 0x38600001#32 = .error .notInScope ∧
    (decode 0x84600000#32 = .ok (.lwzu 3 0 0) ∧ invalidForm? (.lwzu 3 0 0) = some .loadUpdate) ∧
    decode 0x84640004#32 = .ok (.lwzu 3 4 4) ∧ invalidForm? (.lwzu 3 4 4) = none :=
  ⟨by decide, by decide, by decide, by decide,
   by intro w hw; simp only [List.mem_cons, List.not_mem_nil, or_false] at hw; rcases hw with rfl | rfl | rfl <;> decide,
   by decide, by decide, by decide, by decide⟩

theorem witness_BitThirtyOneSetIsAnInvalidForm :
    fieldOpcd (encode (.lwzx 3 4 5)) = 31 ∧ fieldOpcd (encode (.stswi 5 4 7)) = 31 := by decide

/-- Each row's condition met and not met, at the ends of its range. -/
theorem witness_InvalidFormsAreTheRowsOfR70 : ((0#5 : Reg) = 0#5 ∨ (0#5 : Reg) = 3#5) ∧ ¬((4#5 : Reg) = 0#5 ∨ (4#5 : Reg) = 3#5) ∧
    (29#5 : Reg).toNat ≤ (29#5 : Reg).toNat ∧ ¬(29#5 : Reg).toNat ≤ (28#5 : Reg).toNat ∧
    (∃ k < (immediateCount 8 + 3) / 4, (6#5 : Reg) = runReg 5 k) ∧ ¬(∃ k < (immediateCount 8 + 3) / 4, (7#5 : Reg) = runReg 5 k) ∧
    ((5#5 : Reg) = 3#5 ∨ (5#5 : Reg) = 5#5) ∧ ¬((5#5 : Reg) = 3#5 ∨ (5#5 : Reg) = 6#5) := by decide

theorem witness_InvalidFormComputesNothing :
    invalidForm? (.lwzu 4 4 0) = some .loadUpdate ∧ invalidForm? (.stwu 3 0 0) = some .storeUpdate ∧
    invalidForm? (.lmw 29 29 0) = some .lmwRange ∧ invalidForm? (.lswi 5 6 5) = some .lswiRange ∧
    invalidForm? (.lswx 5 3 5) = some .lswxTarget := by decide

theorem witness_BaseOperandIsZeroForFieldZero : (31#5 : Reg) ≠ 0#5 ∧ (Instr.stwu 1 1 0).wf = true ∧
    updateBase (.stwu 1 1 0) = some 1#5 := by decide

theorem witness_AlignTrapConstraints : (0xFFFFFFFC#32).toNat % 4 = 0 ∧ (0xFFFFFFFF#32).toNat % 4 ≠ 0 := by decide

theorem witness_AdmissionIsPerPage : (0x5000#32).toNat / 4096 = (0x5FFF#32).toNat / 4096 := by decide

theorem witness_ByteReverseRoundTrips :
    (Admitted (site 0x1000#32 [] true) .store ((site 0x1000#32 [] true).eaIdx 4 5) 4 ∧
      Admitted (site 0x1000#32 [] true) .load ((site 0x1000#32 [] true).eaIdx 4 5) 4 ∧
      ∀ i ∈ [Instr.stwbrx 3 4 5, .lwbrx 6 4 5, .lwzx 6 4 5, .stwx 3 4 5],
        (site 0x1000#32 [] true).alignTrap i ((site 0x1000#32 [] true).eaIdx 4 5) 4 = false) ∧
    Admitted (site 0x1001#32 [] true) .store ((site 0x1001#32 [] true).eaIdx 4 5) 2 ∧
      Admitted (site 0x1001#32 [] true) .load ((site 0x1001#32 [] true).eaIdx 4 5) 2 ∧
      ∀ i ∈ [Instr.sthbrx 3 4 5, .lhbrx 6 4 5, .lhzx 6 4 5, .sthx 3 4 5],
        (site 0x1001#32 [] true).alignTrap i ((site 0x1001#32 [] true).eaIdx 4 5) 2 = false := by
  unfold Admitted; decide

/-- The widest valid block, GPR1 to GPR31 with rA = 0, and the narrowest, GPR31. -/
theorem witness_LoadMultipleLoadsTheBlock :
    ((0#5 : Reg).toNat < (1#5 : Reg).toNat ∧ (State.reset.eaImm 0 4).toNat % 4 = 0 ∧
      Admitted State.reset .load (State.reset.eaImm 0 4) (4 * (32 - (1#5 : Reg).toNat))) ∧
    (30#5 : Reg).toNat < (31#5 : Reg).toNat ∧ (State.reset.eaImm 30 0xFFFC).toNat % 4 = 0 ∧
      Admitted State.reset .load (State.reset.eaImm 30 0xFFFC) (4 * (32 - (31#5 : Reg).toNat)) :=
  ⟨⟨by decide, by decide, (admitted_iff _ _ _ _).mp (by decide)⟩, by decide, by decide, (admitted_iff _ _ _ _).mp (by decide)⟩

/-- The widest block, GPR0 to GPR31, and the narrowest. -/
theorem witness_StoreMultipleStoresTheBlock :
    ((State.reset.eaImm 0 4).toNat % 4 = 0 ∧
      Admitted State.reset .store (State.reset.eaImm 0 4) (4 * (32 - (0#5 : Reg).toNat))) ∧
    (State.reset.eaImm 30 0xFFFC).toNat % 4 = 0 ∧
      Admitted State.reset .store (State.reset.eaImm 30 0xFFFC) (4 * (32 - (31#5 : Reg).toNat)) :=
  ⟨⟨by decide, (admitted_iff _ _ _ _).mp (by decide)⟩, by decide, (admitted_iff _ _ _ _).mp (by decide)⟩

theorem witness_StoreThenLoadMultipleRestores :
    (4#5 : Reg).toNat < (29#5 : Reg).toNat ∧ ((site 0x1000#32 [] true).eaImm 4 4).toNat % 4 = 0 ∧
    Admitted (site 0x1000#32 [] true) .store ((site 0x1000#32 [] true).eaImm 4 4) (4 * (32 - (29#5 : Reg).toNat)) ∧
    Admitted (site 0x1000#32 [] true) .load ((site 0x1000#32 [] true).eaImm 4 4) (4 * (32 - (29#5 : Reg).toNat)) :=
  ⟨by decide, by decide, (admitted_iff _ _ _ _).mp (by decide), (admitted_iff _ _ _ _).mp (by decide)⟩

/-- The block of GPR29 to GPR31 crossing into the closed page at its third word, lying in it from its first byte on, and
with only the last byte of a misaligned first word in it. -/
theorem witness_LoadMultipleInterruptedByDsi :
    (4#5 : Reg).toNat < (29#5 : Reg).toNat ∧
    (PastAlignment (site 0x4FF8#32 [] true) ((site 0x4FF8#32 [] true).eaImm 4 0) 8 ∧
      RejectedAt (site 0x4FF8#32 [] true) .load ((site 0x4FF8#32 [] true).eaImm 4 0) (4 * (32 - (29#5 : Reg).toNat)) 8) ∧
    (PastAlignment (site 0x5FFC#32 [] true) ((site 0x5FFC#32 [] true).eaImm 4 0) 0 ∧
      RejectedAt (site 0x5FFC#32 [] true) .load ((site 0x5FFC#32 [] true).eaImm 4 0) (4 * (32 - (29#5 : Reg).toNat)) 0) ∧
    ((site 0x4FFD#32 [] false).eaImm 4 0).toNat % 4 ≠ 0 ∧
    PastAlignment (site 0x4FFD#32 [] false) ((site 0x4FFD#32 [] false).eaImm 4 0) 3 ∧
    RejectedAt (site 0x4FFD#32 [] false) .load ((site 0x4FFD#32 [] false).eaImm 4 0) (4 * (32 - (29#5 : Reg).toNat)) 3 :=
  ⟨by decide, ⟨Or.inl (by decide), (rejectedAt_iff _ _ _ _ _).mp (by decide)⟩,
    ⟨Or.inl (by decide), (rejectedAt_iff _ _ _ _ _).mp (by decide)⟩, by decide, Or.inr (by decide),
    (rejectedAt_iff _ _ _ _ _).mp (by decide)⟩

theorem witness_StoreMultipleInterruptedByDsi :
    (PastAlignment (site 0x4FF8#32 [] true) ((site 0x4FF8#32 [] true).eaImm 4 0) 8 ∧
      RejectedAt (site 0x4FF8#32 [] true) .store ((site 0x4FF8#32 [] true).eaImm 4 0) (4 * (32 - (29#5 : Reg).toNat)) 8) ∧
    ((site 0x4FFD#32 [] false).eaImm 4 0).toNat % 4 ≠ 0 ∧
    PastAlignment (site 0x4FFD#32 [] false) ((site 0x4FFD#32 [] false).eaImm 4 0) 3 ∧
    RejectedAt (site 0x4FFD#32 [] false) .store ((site 0x4FFD#32 [] false).eaImm 4 0) (4 * (32 - (29#5 : Reg).toNat)) 3 :=
  ⟨⟨Or.inl (by decide), (rejectedAt_iff _ _ _ _ _).mp (by decide)⟩, by decide, Or.inr (by decide),
    (rejectedAt_iff _ _ _ _ _).mp (by decide)⟩

theorem witness_MisalignedMultipleTakesAlignment :
    (((site 0x1001#32 [] false).eaImm 4 0).toNat % 4 ≠ 0 ∧
      ∀ kind ∈ [AccessKind.load, .store], Admitted (site 0x1001#32 [] false) kind ((site 0x1001#32 [] false).eaImm 4 0) 4) ∧
    ((site 0x5003#32 [] true).eaImm 4 0).toNat % 4 ≠ 0 ∧ (site 0x5003#32 [] true).alignBeforeDSI = true := by
  unfold Admitted; decide

theorem witness_StringCounts : (31#5 : Count) ≠ 0#5 ∧ (1#5 : Count) ≠ 0#5 := by decide

/-- 32 bytes (NB = 0) into the run r30, r31, r0, .., r5 with rA = 6 outside it, and one byte. -/
theorem witness_LoadStringImmediate :
    ((∀ k < (immediateCount 0 + 3) / 4, (6#5 : Reg) ≠ runReg 30 k) ∧
      Admitted State.reset .load (State.reset.base 6) (immediateCount 0)) ∧
    (∀ k < (immediateCount 1 + 3) / 4, (0#5 : Reg) ≠ runReg 31 k) ∧
      Admitted State.reset .load (State.reset.base 0) (immediateCount 1) :=
  ⟨⟨by decide, (admitted_iff _ _ _ _).mp (by decide)⟩, by decide, (admitted_iff _ _ _ _).mp (by decide)⟩

theorem witness_StoreStringImmediate : Admitted State.reset .store (State.reset.base 6) (immediateCount 0) ∧
    Admitted State.reset .store (State.reset.base 0) (immediateCount 1) :=
  ⟨(admitted_iff _ _ _ _).mp (by decide), (admitted_iff _ _ _ _).mp (by decide)⟩

/-- The most bytes a valid lswx can load, 124 into 31 registers with rA = rB = 4 the one left out, and one byte. -/
theorem witness_LoadStringIndexed :
    ((start 124#32 []).xerByteCount ≠ 0 ∧
      (∀ k < ((start 124#32 []).xerByteCount + 3) / 4, (4#5 : Reg) ≠ runReg 5 k ∧ (4#5 : Reg) ≠ runReg 5 k) ∧
      Admitted (start 124#32 []) .load ((start 124#32 []).eaIdx 4 4) (start 124#32 []).xerByteCount) ∧
    (start 1#32 []).xerByteCount ≠ 0 ∧
      (∀ k < ((start 1#32 []).xerByteCount + 3) / 4, (3#5 : Reg) ≠ runReg 5 k ∧ (6#5 : Reg) ≠ runReg 5 k) ∧
      Admitted (start 1#32 []) .load ((start 1#32 []).eaIdx 3 6) (start 1#32 []).xerByteCount :=
  ⟨⟨by decide, by decide, (admitted_iff _ _ _ _).mp (by decide)⟩, by decide, by decide,
    (admitted_iff _ _ _ _).mp (by decide)⟩

theorem witness_StoreStringIndexed :
    Admitted (start 127#32 []) .store ((start 127#32 []).eaIdx 4 4) (start 127#32 []).xerByteCount ∧
    Admitted (start 0#32 []) .store ((start 0#32 []).eaIdx 4 4) (start 0#32 []).xerByteCount :=
  ⟨(admitted_iff _ _ _ _).mp (by decide), (admitted_iff _ _ _ _).mp (by decide)⟩

/-- Strings of 12 bytes at 0x4FFF: the second byte lies in the closed page; and of which only the last byte does. -/
theorem witness_LoadStringsInterruptedByDsi :
    ((∀ q < (immediateCount 12 + 3) / 4, (4#5 : Reg) ≠ runReg 30 q) ∧
      RejectedAt (site 0x4FFF#32 [] true) .load ((site 0x4FFF#32 [] true).base 4) (immediateCount 12) 1 ∧
      RejectedAt (site 0x4FF5#32 [] true) .load ((site 0x4FF5#32 [] true).base 4) (immediateCount 12) 11) ∧
    ({ site 0x4FFF#32 [] true with xer := 12#32 } : State).xerByteCount = 12 ∧
    (∀ q < (12 + 3) / 4, (4#5 : Reg) ≠ runReg 30 q ∧ (5#5 : Reg) ≠ runReg 30 q) ∧
    RejectedAt { site 0x4FFF#32 [] true with xer := 12#32 } .load
      (({ site 0x4FFF#32 [] true with xer := 12#32 } : State).eaIdx 4 5) 12 1 :=
  ⟨⟨by decide, (rejectedAt_iff _ _ _ _ _).mp (by decide), (rejectedAt_iff _ _ _ _ _).mp (by decide)⟩, by decide,
    by decide, (rejectedAt_iff _ _ _ _ _).mp (by decide)⟩

theorem witness_StoreStringsInterruptedByDsi :
    RejectedAt (site 0x4FFF#32 [] true) .store ((site 0x4FFF#32 [] true).base 4) (immediateCount 12) 1 ∧
    ({ site 0x4FFF#32 [] true with xer := 12#32 } : State).xerByteCount = 12 ∧
    RejectedAt { site 0x4FFF#32 [] true with xer := 12#32 } .store
      (({ site 0x4FFF#32 [] true with xer := 12#32 } : State).eaIdx 4 5) 12 1 :=
  ⟨(rejectedAt_iff _ _ _ _ _).mp (by decide), by decide, (rejectedAt_iff _ _ _ _ _).mp (by decide)⟩

theorem witness_LoadStringIndexedCountZero :
    State.reset.xerByteCount = 0 ∧ (5#5 : Reg) ≠ 3#5 ∧ (5#5 : Reg) ≠ 4#5 := by decide

theorem witness_LoadStringIndexedBaseInRunIsRefused :
    (5#5 : Reg) ≠ 3#5 ∧ (5#5 : Reg) ≠ 6#5 ∧ (start 8#32 []).xerByteCount ≠ 0 ∧ 1 < ((start 8#32 []).xerByteCount + 3) / 4 ∧
    ((3#5 : Reg) = runReg 5 1 ∨ (6#5 : Reg) = runReg 5 1) := by decide

theorem witness_LoadStringThenStoreStringCopies :
    (∀ k < (immediateCount 11 + 3) / 4, (4#5 : Reg) ≠ runReg 5 k ∧ (3#5 : Reg) ≠ runReg 5 k) ∧
    Admitted (start 0#32 [(3, 0x1001#32), (4, 0x2003#32)]) .load 0x1001#32 (immediateCount 11) ∧
    Admitted (start 0#32 [(3, 0x1001#32), (4, 0x2003#32)]) .store 0x2003#32 (immediateCount 11) ∧
    (start 0#32 [(3, 0x1001#32), (4, 0x2003#32)]).base 3 = 0x1001#32 ∧
    (start 0#32 [(3, 0x1001#32), (4, 0x2003#32)]).base 4 = 0x2003#32 ∧
    ∀ j < immediateCount 11, ∀ k < immediateCount 11, addrPlus 0x1001#32 j ≠ addrPlus 0x2003#32 k := by
  unfold Admitted; decide

/-- The state after `lbz r3,0(r4)` at reset. -/
def afterLbz : State := (State.reset.setX 3 0#32).advance

theorem witness_PcAdvancesByFourOrFaultIsRecorded :
    State.reset.faultRecord = none ∧ exec (.lbz 3 4 0) State.reset = .next afterLbz := ⟨rfl, rfl⟩

/-- An event of the instruction, InvalidForm. -/
theorem witness_EventsAreThoseOfTheTable : State.reset.faultRecord = none ∧
    exec (.lswi 5 5 4) State.reset = .next (recorded State.reset (.lswi 5 5 4) (.invalidForm .lswiRange)) ∧
    (recorded State.reset (.lswi 5 5 4) (.invalidForm .lswiRange)).faultRecord =
      some ⟨.invalidForm .lswiRange, 0x100#32, 0x7CA524AA#32⟩ := ⟨rfl, rfl, by decide⟩

theorem witness_SpecialRegistersAreNeverWritten : exec (.lbz 3 4 0) State.reset = .next afterLbz := rfl

theorem witness_LoadsLeaveMemoryAlone : isStore (.lbz 3 4 0) = false ∧
    exec (.lbz 3 4 0) State.reset = .next afterLbz := ⟨rfl, rfl⟩

theorem witness_OnlyDestinationRegistersChange : exec (.lbz 3 4 0) State.reset = .next afterLbz ∧
    ¬ mayWrite State.reset (.lbz 3 4 0) 4 ∧ ¬ mayWrite State.reset (.lbzu 3 4 0) 5 ∧
    ¬ mayWrite State.reset (.stw 3 4 0) 3 := by
  refine ⟨rfl, ?_⟩
  unfold mayWrite; decide

theorem witness_UpdateLoadIsLoadThenAdd : (site 0x1000#32 [] true).admits .load ((site 0x1000#32 [] true).eaImm 4 1) = true ∧
    (site 0x1000#32 [] true).admits .load ((site 0x1000#32 [] true).eaIdx 4 5) = true := by decide

/-- A state with the word `w` at the pc as its program text. -/
def loaded (w : Nat) : State := State.reset.withFetchWord 32 w

theorem witness_StepRunsTheDecodedInstruction :
    (loaded 0x80640000).faultRecord = none ∧ (loaded 0x80640000).isInsnAddr (loaded 0x80640000).pc = true ∧
    (∀ k < 4, (addrPlus (loaded 0x80640000).pc k).toNat ∉ (loaded 0x80640000).dirty) ∧
    decode (wordValue (loaded 0x80640000) (loaded 0x80640000).pc) = .ok (.lwz 3 4 0) := by decide

theorem witness_StepRecordsUndecodedWords :
    (∀ w ∈ [0x38600001, 0x84600000], (loaded w).faultRecord = none ∧ (loaded w).isInsnAddr (loaded w).pc = true ∧
      ∀ k < 4, (addrPlus (loaded w).pc k).toNat ∉ (loaded w).dirty) ∧
    decodeChecked (wordValue (loaded 0x38600001) (loaded 0x38600001).pc) = .error .notInScope ∧
    decodeChecked (wordValue (loaded 0x84600000) (loaded 0x84600000).pc) = .error (.invalidForm .loadUpdate) := by
  decide

/-- `loaded` with the last byte of the word at the pc stored to since launch. -/
def stale : State := { loaded 0x80640000 with dirty := [0x103] }

theorem witness_StaleFetchIsRecorded : stale.faultRecord = none ∧ stale.isInsnAddr stale.pc = true ∧
    (addrPlus stale.pc 3).toNat ∈ stale.dirty := by decide

/-- A state whose fault record is set. -/
def stopped : State := stale.raiseStale

theorem witness_FaultRecordStopsTheMachine :
    stopped.faultRecord = some ⟨.staleFetch 0x100#32, 0x100#32, Config.freeWord 0⟩ ∧ step stale = .next stopped ∧
    step stopped = .fault (.recorded ⟨.staleFetch 0x100#32, 0x100#32, Config.freeWord 0⟩) := ⟨rfl, rfl, rfl⟩

/-- The pc just past the program text, outside it, and on an instruction of it. -/
theorem witness_RunEndsOutsideTheProgramText :
    step (loaded 0x80640000).advance = .refused .programEnded ∧ step State.reset = .refused .outsideProgramText ∧
    (loaded 0x80640000).isInsnAddr (loaded 0x80640000).pc = true := ⟨rfl, rfl, rfl⟩

/-- A store into the program text: the invariant holds before and after, and `Dirty` has grown. -/
theorem witness_DirtyIsExactlyTheStoredCode_StepKeepsTheInvariant :
    (loaded 0x98640103).inv = true ∧ decode (wordValue (loaded 0x98640103) (loaded 0x98640103).pc) = .ok (.stb 3 4 0x103) ∧
    storeOperand (loaded 0x98640103) (.stb 3 4 0x103) = (0x103#32, 1) ∧ (loaded 0x98640103).inCode 0x103#32 = true ∧
    (match step (loaded 0x98640103) with
     | .next t => t.inv && t.dirty == [0x103] && t.faultRecord == none && t.byteAt 0x103 != (loaded 0x98640103).byteAt 0x103
     | _ => false) = true := by decide

/-- The ends of the range of d, at bases where the sum stays in the address space. -/
theorem witness_ImmediateIsSignExtended :
    (0 ≤ ((State.reset.setX 4 0x8000#32).base 4).toNat + (0x8000#16 : Imm).toInt ∧
      ((State.reset.setX 4 0x8000#32).base 4).toNat + (0x8000#16 : Imm).toInt < 2 ^ 32) ∧
    0 ≤ ((State.reset.setX 4 0xFFFF8000#32).x 4).toNat + (0x7FFF#16 : Imm).toInt ∧
      ((State.reset.setX 4 0xFFFF8000#32).x 4).toNat + (0x7FFF#16 : Imm).toInt < 2 ^ 32 := by decide

theorem witness_PlacedInstructionRunsNext : decode 0x7C642C2C#32 = .ok (.lwbrx 3 4 5) := by decide

end Sys2Proof.Tests
end

section
/-! PROOFS. The immediate `d` (spec 30_encoding R64): its sign extension as a number and bit by bit, and its sum with a
base address. -/

namespace Sys2Proof.Machine

/-! ## The sign-extended immediate -/

@[simp] theorem toInt_sextImm (d : Imm) : (sextImm d).toInt = d.toInt :=
  BitVec.toInt_signExtend_of_le (by decide)

theorem imm_toInt_bounds (d : Imm) : -32768 ≤ d.toInt ∧ d.toInt ≤ 32767 :=
  ⟨BitVec.le_toInt d, Int.le_of_lt_add_one BitVec.toInt_lt⟩

/-- The bits of field D below 16, copies of its bit 15 from there on. -/
theorem getLsbD_sextImm (d : Imm) {k : Nat} (hk : k < 32) :
    (sextImm d).getLsbD k = if k < 16 then d.getLsbD k else d.getLsbD 15 := by
  rw [sextImm, BitVec.getLsbD_signExtend, BitVec.msb_eq_getLsbD_last]
  simp [hk]

/-! ## The immediate as a byte offset -/

/-- The immediate added to an address, as numbers: the signed offset itself, modulo 2^32 (D4). -/
theorem toNat_add_sextImm (a : Word) (d : Imm) :
    ((a + sextImm d).toNat : Int) = (a.toNat + d.toInt) % 2 ^ 32 := by
  have hd : ((sextImm d).toNat : Int) % 2 ^ 32 = d.toInt % 2 ^ 32 := by
    rw [← toInt_sextImm, BitVec.toInt_eq_toNat_bmod]
    exact Int.bmod_emod.symm
  calc ((a + sextImm d).toNat : Int)
      = (a.toNat + (sextImm d).toNat) % 2 ^ 32 := by simp
    _ = (a.toNat + d.toInt) % 2 ^ 32 := by rw [Int.add_emod, hd, ← Int.add_emod]

/-- Where the sum lies in the address space nothing wraps, so the offset is added exactly. -/
theorem toNat_add_sextImm_of_inRange {a : Word} {d : Imm} (hlo : 0 ≤ a.toNat + d.toInt)
    (hhi : a.toNat + d.toInt < 2 ^ 32) : ((a + sextImm d).toNat : Int) = a.toNat + d.toInt := by
  rw [toNat_add_sextImm, Int.emod_eq_of_lt hlo hhi]

/-- Settles O60: the two EAs are one sum, over the two bases of R81 and R85. -/
theorem immediateIsSignExtended : Obligations.ImmediateIsSignExtended := by
  intro d
  obtain ⟨hlo, hhi⟩ := imm_toInt_bounds d
  rw [toInt_sextImm]
  exact ⟨rfl, hlo, hhi, fun _ => getLsbD_sextImm d,
    fun _ _ => ⟨toNat_add_sextImm_of_inRange, toNat_add_sextImm_of_inRange⟩⟩

end Sys2Proof.Machine
end

section
/-! PROOFS. The operand (rA|0) and the update forms (spec 40_address_generation R80, R85; 30_encoding R70). -/

namespace Sys2Proof.Machine

/-! ## The base operand -/

@[simp] theorem State.base_zero (s : State) : s.base 0#5 = 0#32 := rfl

theorem State.base_of_ne_zero (s : State) {ra : Reg} (h : ra ≠ 0#5) : s.base ra = s.x ra := if_neg h

theorem State.eaImmU_eq_eaImm (s : State) {ra : Reg} (d : Imm) (h : ra ≠ 0#5) : s.eaImmU ra d = s.eaImm ra d := by
  rw [State.eaImmU, State.eaImm, s.base_of_ne_zero h]

theorem State.eaIdxU_eq_eaIdx (s : State) {ra : Reg} (rb : Reg) (h : ra ≠ 0#5) : s.eaIdxU ra rb = s.eaIdx ra rb := by
  rw [State.eaIdxU, State.eaIdx, s.base_of_ne_zero h]

/-! ## The base register of an update form -/

/-- Rows 1 and 2 of R70: an update form with rA = 0 is invalid, whatever its other operands. -/
theorem invalidForm?_of_updateBase_zero {i : Instr} (h : Stated.updateBase i = some 0#5) :
    invalidForm? i = some (if isStore i then .storeUpdate else .loadUpdate) := by
  cases i with
  | lbzu | lbzux | lhzu | lhzux | lhau | lhaux | lwzu | lwzux => cases h; rfl
  | stbu | stbux | sthu | sthux | stwu | stwux => cases h; rfl
  | _ => cases h

theorem updateBase_ne_zero_of_wf {i : Instr} (hwf : i.wf = true) {ra : Reg} (h : Stated.updateBase i = some ra) :
    ra ≠ 0#5 := by
  rintro rfl
  rw [Instr.wf, invalidForm?_of_updateBase_zero h] at hwf
  cases hwf

/-- Settles O8: the test of R80 is on the field, and a valid update form never has field 0. -/
theorem baseOperandIsZeroForFieldZero : Obligations.BaseOperandIsZeroForFieldZero :=
  ⟨State.base_zero, fun s _ => s.base_of_ne_zero, fun _ hwf _ => updateBase_ne_zero_of_wf hwf,
    fun s _ rb d h => ⟨s.eaImmU_eq_eaImm d h, s.eaIdxU_eq_eaIdx rb h⟩⟩

end Sys2Proof.Machine
end

section
/-! PROOFS. The decoder and the encoder (spec 30_encoding R60 to R72): each decides the other, through the two opcode maps. -/

namespace Sys2Proof

/-! ## The opcode maps -/

/-- The D-form map names the 16 primary opcodes from 32 on (R67). -/
theorem map_fst_dForms : dForms.map Prod.fst = List.range' 32 16 := rfl

/-- The X-form map names the extended opcodes of R68, in their order. -/
theorem map_fst_xForms : xForms.map Prod.fst = Stated.knownXo := rfl

theorem exists_lookup_iff {β : Type} (l : List (Nat × β)) (k : Nat) :
    (∃ b, l.lookup k = some b) ↔ k ∈ l.map Prod.fst := by
  rw [← Option.isSome_iff_exists, ← not_iff_not, Option.not_isSome_iff_eq_none, List.lookup_eq_none_iff]
  simp only [List.mem_map, not_exists, not_and, bne_iff_ne, Prod.forall, ne_eq]
  grind

theorem exists_dForms_lookup_iff (op : Nat) : (∃ mk, dForms.lookup op = some mk) ↔ 32 ≤ op ∧ op ≤ 47 := by
  rw [exists_lookup_iff, map_fst_dForms, List.mem_range'_1]
  omega

theorem exists_xForms_lookup_iff (xo : Nat) : (∃ mk, xForms.lookup xo = some mk) ↔ xo ∈ Stated.knownXo := by
  rw [exists_lookup_iff, map_fst_xForms]

theorem mem_of_lookup_eq_some {β : Type} {l : List (Nat × β)} {k : Nat} {b : β} (h : l.lookup k = some b) :
    (k, b) ∈ l := by
  obtain ⟨_, _, rfl, _⟩ := List.lookup_eq_some_iff.mp h
  simp

/-- Every entry of the D-form map is the opcode and the constructor of one instruction (R67). -/
theorem encode_of_mem_dForms {op : Nat} {mk : Reg → Reg → Imm → Instr} (h : (op, mk) ∈ dForms) (rt ra : Reg) (d : Imm) :
    encode (mk rt ra d) = encodeD op rt ra d := by
  have : ∀ e ∈ dForms, encode (e.2 rt ra d) = encodeD e.1 rt ra d := by
    simp [dForms, encode]
  exact this _ h

theorem encode_of_mem_xForms {xo : Nat} {mk : Reg → Reg → Reg → Instr} (h : (xo, mk) ∈ xForms) (rt ra rb : Reg) :
    encode (mk rt ra rb) = encodeX xo rt ra rb := by
  have : ∀ e ∈ xForms, encode (e.2 rt ra rb) = encodeX e.1 rt ra rb := by
    simp [xForms, encode]
  exact this _ h

/-! ## What decodes -/

/-- A D-form word: its primary opcode is in the map R67, and its fields are the operands. -/
theorem decode_of_dForm {w : Word} {mk : Reg → Reg → Imm → Instr} (h : dForms.lookup (fieldOpcd w) = some mk) :
    decode w = .ok (mk (fieldRT w) (fieldRA w) (fieldD w)) := by
  have hne : fieldOpcd w ≠ 31 := by
    have := (exists_dForms_lookup_iff _).mp ⟨mk, h⟩
    omega
  simp [decode, hne, h]

/-- An X-form word: primary opcode 31, its extended opcode in the map R68; bit 31 decides (R69). -/
theorem decode_of_xForm {w : Word} {mk : Reg → Reg → Reg → Instr} (ho : fieldOpcd w = 31)
    (h : xForms.lookup (fieldXo w) = some mk) :
    decode w = if fieldRc w then
        .error (.invalidForm (if isStore (mk (fieldRT w) (fieldRA w) (fieldRB w)) then .storeRc else .loadRc))
      else .ok (mk (fieldRT w) (fieldRA w) (fieldRB w)) := by
  simp [decode, ho, h]

/-- A word in neither map is out of scope (R72). -/
theorem decode_of_unmapped {w : Word} (hd : ¬(32 ≤ fieldOpcd w ∧ fieldOpcd w ≤ 47))
    (hx : ¬(fieldOpcd w = 31 ∧ fieldXo w ∈ Stated.knownXo)) : decode w = .error .notInScope := by
  rw [← exists_dForms_lookup_iff, not_exists] at hd
  rw [← exists_xForms_lookup_iff] at hx
  unfold decode
  split
  · next ho =>
    cases h : xForms.lookup (fieldXo w) with
    | none => rfl
    | some mk => exact absurd ⟨ho, mk, h⟩ hx
  · cases h : dForms.lookup (fieldOpcd w) with
    | none => rfl
    | some mk => exact absurd h (hd mk)

/-- The two ways in which a word decodes (R71). -/
theorem decode_ok_cases {w : Word} {i : Instr} (h : decode w = .ok i) :
    (∃ mk, dForms.lookup (fieldOpcd w) = some mk ∧ i = mk (fieldRT w) (fieldRA w) (fieldD w)) ∨
      ∃ mk, fieldOpcd w = 31 ∧ xForms.lookup (fieldXo w) = some mk ∧ fieldRc w = false ∧
        i = mk (fieldRT w) (fieldRA w) (fieldRB w) := by
  by_cases hd : 32 ≤ fieldOpcd w ∧ fieldOpcd w ≤ 47
  · obtain ⟨mk, hmk⟩ := (exists_dForms_lookup_iff _).mpr hd
    rw [decode_of_dForm hmk] at h
    cases h
    exact Or.inl ⟨mk, hmk, rfl⟩
  · by_cases hx : fieldOpcd w = 31 ∧ fieldXo w ∈ Stated.knownXo
    · obtain ⟨ho, hxo⟩ := hx
      obtain ⟨mk, hmk⟩ := (exists_xForms_lookup_iff _).mpr hxo
      rw [decode_of_xForm ho hmk] at h
      cases hr : fieldRc w <;> simp only [hr, if_true, Bool.false_eq_true, if_false] at h
      · cases h
        exact Or.inr ⟨mk, ho, hmk, rfl, rfl⟩
      · cases h
    · rw [decode_of_unmapped hd hx] at h
      cases h

/-- Settles O2: in both formats the fields put together again are the word. -/
theorem encodeOfDecodeIsTheWord : Obligations.EncodeOfDecodeIsTheWord := by
  intro w i h
  rcases decode_ok_cases h with ⟨mk, hmk, rfl⟩ | ⟨mk, ho, hmk, hr, rfl⟩
  · rw [encode_of_mem_dForms (mem_of_lookup_eq_some hmk), encodeD_fields]
  · rw [encode_of_mem_xForms (mem_of_lookup_eq_some hmk), encodeX_fields w ho hr]

theorem decode_encodeD {op : Nat} {mk : Reg → Reg → Imm → Instr} (h : dForms.lookup op = some mk) (rt ra : Reg)
    (d : Imm) : decode (encodeD op rt ra d) = .ok (mk rt ra d) := by
  have hop := (exists_dForms_lookup_iff op).mp ⟨mk, h⟩
  have hf : fieldOpcd (encodeD op rt ra d) = op := by
    rw [fieldOpcd_encodeD]
    omega
  rw [decode_of_dForm (by rw [hf]; exact h)]
  simp

theorem decode_encodeX {xo : Nat} {mk : Reg → Reg → Reg → Instr} (h : xForms.lookup xo = some mk) (rt ra rb : Reg) :
    decode (encodeX xo rt ra rb) = .ok (mk rt ra rb) := by
  have hlt : ∀ x ∈ Stated.knownXo, x % 1024 = x := by decide
  have hf : fieldXo (encodeX xo rt ra rb) = xo := by
    rw [fieldXo_encodeX, hlt xo ((exists_xForms_lookup_iff xo).mp ⟨mk, h⟩)]
  rw [decode_of_xForm (by simp) (by rw [hf]; exact h)]
  simp

theorem decode_encode (i : Instr) : decode (encode i) = .ok i := by
  cases i with
  | lwz | lwzu | lbz | lbzu | stw | stwu | stb | stbu | lhz | lhzu | lha | lhau | sth | sthu | lmw | stmw =>
    exact decode_encodeD rfl _ _ _
  | _ => exact decode_encodeX rfl _ _ _

theorem decodeChecked_of_error {w : Word} {e : Undecoded} (h : decode w = .error e) : decodeChecked w = .error e := by
  simp [decodeChecked, h]

theorem decodeChecked_of_valid {w : Word} {i : Instr} (h : decode w = .ok i) (hi : invalidForm? i = none) :
    decodeChecked w = .ok i := by
  simp [decodeChecked, h, hi]

theorem decodeChecked_of_invalid {w : Word} {i : Instr} {reason : InvalidReason} (h : decode w = .ok i)
    (hi : invalidForm? i = some reason) : decodeChecked w = .error (.invalidForm reason) := by
  simp [decodeChecked, h, hi]

theorem Instr.wf_iff (i : Instr) : i.wf = true ↔ invalidForm? i = none := by
  simp [Instr.wf]

/-- Settles O1: an instruction's word has the opcode of its row of the maps, and its fields are its operands. -/
theorem decodeOfEncodeIsTheInstruction : Obligations.DecodeOfEncodeIsTheInstruction :=
  fun i => ⟨decode_encode i, fun hwf => decodeChecked_of_valid (decode_encode i) ((Instr.wf_iff i).mp hwf)⟩

/-- Settles O3: the two maps name the primary opcodes 32 to 47 and the extended opcodes of R68. -/
theorem decodeIsTotalByOpcodeMaps : Obligations.DecodeIsTotalByOpcodeMaps := by
  refine ⟨fun w hlo hhi => ?_, fun w ho hx hr => ?_, fun w ho hx hr => ?_, fun w => decode_of_unmapped,
    fun w e => decodeChecked_of_error, fun w i h => ⟨fun _ => decodeChecked_of_invalid h, decodeChecked_of_valid h⟩⟩
  · obtain ⟨mk, hmk⟩ := (exists_dForms_lookup_iff _).mpr ⟨hlo, hhi⟩
    exact ⟨_, decode_of_dForm hmk, encodeOfDecodeIsTheWord _ _ (decode_of_dForm hmk)⟩
  · obtain ⟨mk, hmk⟩ := (exists_xForms_lookup_iff _).mpr hx
    have hd := decode_of_xForm ho hmk
    rw [hr, if_neg Bool.false_ne_true] at hd
    exact ⟨_, hd, encodeOfDecodeIsTheWord _ _ hd⟩
  · obtain ⟨mk, hmk⟩ := (exists_xForms_lookup_iff _).mpr hx
    exact ⟨_, by rw [decode_of_xForm ho hmk, hr, if_pos rfl]⟩

/-! ## Bit 31 -/

/-- A field above bit 31 (MSB-0) does not see it. -/
theorem extractLsb'_or_one (w : Word) {start : Nat} (len : Nat) (h : 0 < start) :
    (w ||| 1#32).extractLsb' start len = w.extractLsb' start len := by
  ext k hk
  simp [BitVec.getLsbD_one, h.ne']

@[simp] theorem fieldOpcd_or_one (w : Word) : fieldOpcd (w ||| 1#32) = fieldOpcd w :=
  congrArg BitVec.toNat (extractLsb'_or_one w 6 (by decide))

@[simp] theorem fieldXo_or_one (w : Word) : fieldXo (w ||| 1#32) = fieldXo w :=
  congrArg BitVec.toNat (extractLsb'_or_one w 10 (by decide))

@[simp] theorem fieldRT_or_one (w : Word) : fieldRT (w ||| 1#32) = fieldRT w := extractLsb'_or_one w 5 (by decide)

@[simp] theorem fieldRA_or_one (w : Word) : fieldRA (w ||| 1#32) = fieldRA w := extractLsb'_or_one w 5 (by decide)

@[simp] theorem fieldRB_or_one (w : Word) : fieldRB (w ||| 1#32) = fieldRB w := extractLsb'_or_one w 5 (by decide)

@[simp] theorem fieldRc_or_one (w : Word) : fieldRc (w ||| 1#32) = true := by
  have : (w ||| 1#32).extractLsb' 0 1 = 1#1 := by
    ext k hk
    have : k = 0 := by omega
    simp [this]
  simp [fieldRc, this]

/-- Settles O5: bit 31 is in no other field, so the word with it set decodes as before up to the test of R69. -/
theorem bitThirtyOneSetIsAnInvalidForm : Obligations.BitThirtyOneSetIsAnInvalidForm := by
  intro i ho
  rcases decode_ok_cases (decode_encode i) with ⟨mk, hmk, -⟩ | ⟨mk, -, hmk, -, hi⟩
  · have := (exists_dForms_lookup_iff _).mp ⟨mk, hmk⟩
    omega
  · rw [decode_of_xForm (by simpa using ho) (by simpa using hmk)]
    simp [← hi]

/-- Settles O4. -/
theorem specWordsDecode : Obligations.SpecWordsDecode := by
  refine ⟨?_, ?_, ?_, ?_, ?_, ?_, ?_, ?_, ?_, ?_, ?_, ?_⟩ <;> decide

end Sys2Proof
end

section
/-! PROOFS. The invalid forms (spec 30_encoding R70), the counts of the strings (45_load_store_string R151), the sums that
make an address (40_address_generation R80 to R85), and the two launch predicates (20_memory R46, R50). -/

namespace Sys2Proof.Machine

open Sys2Proof.Stated

/-! ## Invalid forms -/

theorem invalidExactly_of_eq_ite {i : Instr} {b : Bool} {condition : Prop} {row : InvalidReason}
    (hi : invalidForm? i = if b then some row else none) (hb : b = true ↔ condition) :
    InvalidExactly i condition row := by
  unfold InvalidExactly Instr.wf
  cases b <;> simp_all

theorem alwaysValid_of_eq_none {i : Instr} (hi : invalidForm? i = none) : AlwaysValid i :=
  ⟨hi, (Instr.wf_iff i).mpr hi⟩

/-- Settles O6: each row's test on the fields is its condition; of the run of lswi that is the arithmetic of R152. -/
theorem invalidFormsAreTheRowsOfR70 : Obligations.InvalidFormsAreTheRowsOfR70 := by
  intro rt ra rb d nb
  refine ⟨?loadUpdate, ?storeUpdate, ?lmw, ?lswi, ?lswx, ?valid⟩
  case loadUpdate =>
    exact fun i hi => invalidExactly_of_eq_ite (b := ra = 0#5 || ra = rt) (by revert i; simp [invalidForm?]) (by simp)
  case storeUpdate =>
    exact fun i hi => invalidExactly_of_eq_ite (b := ra = 0#5) (by revert i; simp [invalidForm?]) decide_eq_true_iff
  case lmw =>
    exact invalidExactly_of_eq_ite (b := rt.toNat ≤ ra.toNat) (by simp [invalidForm?]) decide_eq_true_iff
  case lswi => exact invalidExactly_of_eq_ite rfl (inRun_iff rt ra (by have := immediateCount_le nb; omega))
  case lswx => exact invalidExactly_of_eq_ite rfl (by simp)
  case valid => exact fun i hi => alwaysValid_of_eq_none (by revert i; simp [invalidForm?])

theorem raise_eq_recorded (s : State) (i : Instr) (e : FaultKind) : s.raise e (encode i) = recorded s i e := rfl

/-- The instructions that R70 names test for their row before anything else (R7, R71). -/
theorem exec_of_invalid {i : Instr} (s : State) {reason : InvalidReason} (h : invalidForm? i = some reason) :
    exec i s = .next (recorded s i (.invalidForm reason)) := by
  rw [← raise_eq_recorded]
  cases i with
  | lbzu | lbzux | lhzu | lhzux | lhau | lhaux | lwzu | lwzux => exact whenValid_of_invalid s _ h
  | stbu | stbux | sthu | sthux | stwu | stwux => exact whenValid_of_invalid s _ h
  | lmw | lswi | lswx => exact whenValid_of_invalid s _ h
  | _ => cases h

/-- Settles O7. -/
theorem invalidFormComputesNothing : Obligations.InvalidFormComputesNothing :=
  fun _ s _ h => exec_of_invalid s h

/-! ## Counts -/

theorem State.xerByteCount_eq (s : State) : s.xerByteCount = s.xer.toNat % 128 := by
  simp [State.xerByteCount]

/-- Settles O34. -/
theorem stringCounts : Obligations.StringCounts :=
  ⟨fun _ h => if_neg h, rfl, fun nb => ⟨immediateCount_pos nb, immediateCount_le nb⟩,
    fun s => ⟨s.xerByteCount_eq, Nat.le_of_lt_succ s.xerByteCount_lt⟩⟩

/-! ## Address sums -/

theorem State.toNat_base (s : State) (ra : Reg) : (s.base ra).toNat = if ra = 0#5 then 0 else (s.x ra).toNat := by
  unfold State.base
  split <;> rfl

theorem toNat_addrPlus (a : Word) (k : Nat) : (addrPlus a k).toNat = (a.toNat + k) % 2 ^ 32 := by
  simp [addrPlus]

/-- Settles O9: the addition of words is the addition of their numbers modulo 2^32 (D4). -/
theorem effectiveAddressesAreSumsModulo : Obligations.EffectiveAddressesAreSumsModulo := by
  intro s ra rb d a k
  refine ⟨?_, s.toNat_base ra, ?_, toNat_add_sextImm _ d, BitVec.toNat_add _ _, toNat_addrPlus a k⟩
  · rw [State.eaImm, toNat_add_sextImm, s.toNat_base, apply_ite Nat.cast, Nat.cast_zero]
  · rw [State.eaIdx, BitVec.toNat_add, s.toNat_base]

/-! ## Launch predicates -/

/-- Settles O10. -/
theorem alignTrapConstraints : Obligations.AlignTrapConstraints :=
  ⟨State.alignTrap_of_aligned, State.alignTrap_byte, fun s rt ra d a ha => by
    rw [s.alignTrap_multiple (i := .lmw rt ra d) rfl, s.alignTrap_multiple (i := .stmw rt ra d) rfl]
    simpa using ha⟩

theorem toNat_pageOf (a : Word) : (a.extractLsb' 12 20).toNat = a.toNat / 4096 := by
  rw [BitVec.extractLsb'_toNat, Nat.shiftRight_eq_div_pow]
  have := a.isLt
  omega

/-- Settles O11: `Admit` reads nothing of an address but the number of its page. -/
theorem admissionIsPerPage : Obligations.AdmissionIsPerPage := by
  intro s kind a b h
  have hpage : a.extractLsb' 12 20 = b.extractLsb' 12 20 := by
    apply BitVec.eq_of_toNat_eq
    rw [toNat_pageOf, toNat_pageOf, h]
  cases kind <;> simp [State.admits, hpage]

/-- Settles O58. -/
theorem resetHasTheInvariant : Obligations.ResetHasTheInvariant := ⟨rfl, rfl, rfl⟩

end Sys2Proof.Machine
end

section
/-! PROOFS. What an instruction can do, said once: transfers, and then the advance of the pc or the record of a fault
(spec 41 to 45; 60_exceptions R170, R174). The statements about all 38 instructions are read off it. -/

namespace Sys2Proof.Machine

open Sys2Proof.Stated

/-! ## Transfers -/

/-- `u` is reached from `s` by writes of registers that `R` names, stores of bytes at addresses that `A` names, and free
draws. -/
inductive Transfers (R : Reg → Prop) (A : Word → Prop) (s : State) : State → Prop
  | start : Transfers R A s s
  | reg {u : State} {r : Reg} (v : Word) : Transfers R A s u → R r → Transfers R A s (u.setX r v)
  | byte {u : State} {a : Word} (b : Byte) : Transfers R A s u → A a → Transfers R A s (u.storeByte a b)
  | draw {u : State} : Transfers R A s u → Transfers R A s u.drawn

namespace Transfers

variable {R : Reg → Prop} {A : Word → Prop} {s u : State}

/-! ### What transfers leave alone -/

theorem pc_eq (h : Transfers R A s u) : u.pc = s.pc := by
  induction h with
  | start => rfl
  | reg _ _ _ ih | byte _ _ _ ih | draw _ ih => exact ih

theorem faultRecord_eq (h : Transfers R A s u) : u.faultRecord = s.faultRecord := by
  induction h with
  | start => rfl
  | reg _ _ _ ih | byte _ _ _ ih | draw _ ih => exact ih

theorem cr_eq (h : Transfers R A s u) : u.cr = s.cr := by
  induction h with
  | start => rfl
  | reg _ _ _ ih | byte _ _ _ ih | draw _ ih => exact ih

theorem xer_eq (h : Transfers R A s u) : u.xer = s.xer := by
  induction h with
  | start => rfl
  | reg _ _ _ ih | byte _ _ _ ih | draw _ ih => exact ih

theorem launchKept (h : Transfers R A s u) : LaunchKept s u := by
  induction h with
  | start => exact ⟨rfl, rfl, rfl, rfl, rfl⟩
  | reg _ _ _ ih | byte _ _ _ ih | draw _ ih => exact ih

theorem inCode_eq (h : Transfers R A s u) (a : Word) : u.inCode a = s.inCode a := by
  rw [State.inCode, h.launchKept.1, State.inCode]

theorem x_eq (h : Transfers R A s u) {r : Reg} (hr : ¬ R r) : u.x r = s.x r := by
  induction h with
  | start => rfl
  | reg v _ hq ih =>
    rw [State.x_setX_ne _ _ (fun e => hr (by rw [e]; exact hq)), ih]
  | byte _ _ _ ih | draw _ ih => exact ih

theorem mem_eq (h : Transfers R A s u) (hA : ∀ a, ¬ A a) : u.mem = s.mem ∧ u.dirty = s.dirty := by
  induction h with
  | start => exact ⟨rfl, rfl⟩
  | byte _ _ ha => exact absurd ha (hA _)
  | reg _ _ _ ih | draw _ ih => exact ih

theorem inv_of_inv (h : Transfers R A s u) (hs : s.inv = true) : u.inv = true := by
  induction h with
  | start => exact hs
  | byte b _ _ ih => exact State.inv_storeByte ih _ b
  | reg _ _ _ ih | draw _ ih => exact ih

/-! ### `Dirty` -/

theorem mem_dirty_of_mem (h : Transfers R A s u) {c : Nat} (hc : c ∈ s.dirty) : c ∈ u.dirty := by
  induction h with
  | start => exact hc
  | byte _ _ _ ih =>
    rw [State.storeByte_dirty]
    split
    · exact (mem_addAddr _ _ _).mpr (Or.inr ih)
    · exact ih
  | reg _ _ _ ih | draw _ ih => exact ih

theorem mem_dirty (h : Transfers R A s u) {c : Nat} (hc : c ∈ u.dirty) :
    c ∈ s.dirty ∨ ∃ a, A a ∧ s.inCode a = true ∧ c = a.toNat := by
  induction h with
  | start => exact Or.inl hc
  | byte _ hu ha ih =>
    rw [State.storeByte_dirty] at hc
    split at hc
    · next hin =>
      rcases (mem_addAddr _ _ _).mp hc with rfl | hc
      · exact Or.inr ⟨_, ha, by rw [← hu.inCode_eq]; exact hin, rfl⟩
      · exact ih hc
    · exact ih hc
  | reg _ _ _ ih | draw _ ih => exact ih hc

theorem mem_dirty_of_byteAt_ne (h : Transfers R A s u) {a : Word} (hb : u.byteAt a ≠ s.byteAt a)
    (hin : s.inCode a = true) : a.toNat ∈ u.dirty := by
  induction h with
  | start => exact absurd rfl hb
  | @byte u c b hu _ ih =>
    rw [State.byteAt_storeByte] at hb
    rw [State.storeByte_dirty]
    by_cases hc : a = c
    · subst hc
      rw [if_pos (by rw [hu.inCode_eq]; exact hin)]
      exact (mem_addAddr _ _ _).mpr (Or.inl rfl)
    · rw [if_neg hc] at hb
      split
      · exact (mem_addAddr _ _ _).mpr (Or.inr (ih hb))
      · exact ih hb
  | reg _ _ _ ih | draw _ ih => exact ih hb

/-! ### The transfers of the shared operations -/

theorem storeBytes (h : Transfers R A s u) {a : Word} {bs : List Byte} (hA : ∀ k < bs.length, A (addrPlus a k)) :
    Transfers R A s (u.storeBytes a bs) := by
  induction bs generalizing u a with
  | nil => exact h
  | cons b bs ih =>
    refine ih (h.byte b ?_) fun k hk => ?_
    · simpa [addrPlus_zero] using hA 0 (by simp)
    · rw [addrPlus_addrPlus, Nat.add_comm]
      exact hA (k + 1) (by simpa using hk)

theorem loadWords (pick : Nat → Bool) (rt : Reg) (ea : Word) {n : Nat} (hR : ∀ k < n, R (runReg rt k)) :
    Transfers R A s (s.loadWords pick rt ea n) := by
  induction n with
  | zero => exact .start
  | succ n ih =>
    have ih := ih fun k hk => hR k (by omega)
    simp only [State.loadWords]
    split
    · exact ih.reg _ (hR n (by omega))
    · exact ih

theorem storeWords (pick : Nat → Bool) (rs : Reg) (ea : Word) {n : Nat} (hA : ∀ k < 4 * n, A (addrPlus ea k)) :
    Transfers R A s (s.storeWords pick rs ea n) := by
  induction n with
  | zero => exact .start
  | succ n ih =>
    have ih := ih fun k hk => hA k (by omega)
    simp only [State.storeWords]
    split
    · refine ih.storeBytes fun k hk => ?_
      have hk : k < 4 := by simpa [wordBytes] using hk
      rw [addrPlus_addrPlus]
      exact hA _ (by omega)
    · exact ih

theorem clearForByte (h : Transfers R A s u) {rt : Reg} {j : Nat} (hR : R (runReg rt (j / 4))) :
    Transfers R A s (u.clearForByte rt j) := by
  unfold State.clearForByte
  split
  · exact h.reg _ hR
  · exact h

theorem loadString (clear pick : Nat → Bool) (rt : Reg) (ea : Word) {n : Nat}
    (hR : ∀ k < (n + 3) / 4, R (runReg rt k)) : Transfers R A s (s.loadString clear pick rt ea n) := by
  induction n with
  | zero => exact .start
  | succ n ih =>
    have ih := ih fun k hk => hR k (by omega)
    have hn : R (runReg rt (n / 4)) := hR _ (by omega)
    have hclear : Transfers R A s (if clear n then (s.loadString clear pick rt ea n).clearForByte rt n
        else s.loadString clear pick rt ea n) := by
      split
      · exact ih.clearForByte hn
      · exact ih
    simp only [State.loadString]
    split
    · exact hclear.reg _ hn
    · exact hclear

theorem storeString (pick : Nat → Bool) (rs : Reg) (ea : Word) {n : Nat} (hA : ∀ k < n, A (addrPlus ea k)) :
    Transfers R A s (s.storeString pick rs ea n) := by
  induction n with
  | zero => exact .start
  | succ n ih =>
    have ih := ih fun k hk => hA k (by omega)
    simp only [State.storeString]
    split
    · exact ih.byte _ (hA n (by omega))
    · exact ih

end Transfers

/-! ## The effect of an instruction -/

/-- `a` is a byte of the operand of the store `i` (files 42 to 45). -/
def inOperand (s : State) (i : Instr) (a : Word) : Prop :=
  ∃ k < (storeOperand s i).2, a = addrPlus (storeOperand s i).1 k

/-- Every byte of the operand that lies in the program text is in `Dirty` (R41, R56). -/
def OperandDirty (s : State) (i : Instr) (u : State) : Prop :=
  ∀ k < (storeOperand s i).2, s.inCode (addrPlus (storeOperand s i).1 k) = true →
    (addrPlus (storeOperand s i).1 k).toNat ∈ u.dirty

/-- `o` is what instruction `i` may answer from `s`: after transfers into its own registers and its own operand, either
the pc advances, the operand being stored whole, or an event of R174 is recorded. -/
def Effect (s : State) (i : Instr) (o : Result) : Prop :=
  ∃ u, Transfers (mayWrite s i) (inOperand s i) s u ∧
    ((o = .next u.advance ∧ OperandDirty s i u) ∨ ∃ e, mayRaise i e ∧ o = .next (u.raise e (encode i)))

theorem operandDirty_of_noOperand {s u : State} {i : Instr} (h : (storeOperand s i).2 = 0) : OperandDirty s i u := by
  intro k hk
  omega

theorem operandDirty_storeBytes {s : State} {i : Instr} {ea : Word} {bs : List Byte}
    (h : storeOperand s i = (ea, bs.length)) : OperandDirty s i (s.storeBytes ea bs) := by
  intro k hk hin
  rw [h] at hk hin ⊢
  exact (s.mem_dirty_storeBytes ea bs _).mpr (Or.inr ⟨k, hk, hin, rfl⟩)

theorem mayRaise_of_check {s : State} {i : Instr} {a : Word} {n : Nat} {e : FaultKind}
    (h : s.check i a n (kindOf i) = some e) (hm : n ≠ 1 → canMisalign i) : mayRaise i e := by
  rcases State.check_cases h with ⟨rfl, ht⟩ | ⟨b, rfl⟩
  · refine ⟨rfl, hm ?_⟩
    rintro rfl
    rw [State.alignTrap_byte] at ht
    cases ht
  · rfl

section
variable {s : State} {i : Instr}

theorem effect_raise {e : FaultKind} (h : mayRaise i e) : Effect s i (s.raiseAt i e) :=
  ⟨s, .start, Or.inr ⟨e, h, rfl⟩⟩

theorem effect_whenValid {k : Result} (h : invalidForm? i = none → Effect s i k) : Effect s i (whenValid i s k) := by
  unfold whenValid
  split
  · next reason hi => exact effect_raise (e := .invalidForm reason) hi
  · next hi => exact h hi

theorem effect_loadTo {ea : Word} {n : Nat} {rt : Reg} {v : Word} (hk : kindOf i = .load)
    (ho : (storeOperand s i).2 = 0) (hrt : mayWrite s i rt) (hm : n ≠ 1 → canMisalign i) :
    Effect s i (loadTo i s ea n rt v) := by
  unfold loadTo
  split
  · next e hc => exact effect_raise (mayRaise_of_check (hk ▸ hc) hm)
  · exact ⟨s.setX rt v, .reg v .start hrt, Or.inl ⟨rfl, operandDirty_of_noOperand ho⟩⟩

theorem effect_loadToU {ea : Word} {n : Nat} {rt ra : Reg} {v : Word} (hk : kindOf i = .load)
    (ho : (storeOperand s i).2 = 0) (hrt : mayWrite s i rt) (hra : mayWrite s i ra) (hm : n ≠ 1 → canMisalign i) :
    Effect s i (loadToU i s ea n rt ra v) := by
  refine effect_whenValid fun _ => ?_
  split
  · next e hc => exact effect_raise (mayRaise_of_check (hk ▸ hc) hm)
  · exact ⟨_, .reg ea (.reg v .start hrt) hra, Or.inl ⟨rfl, operandDirty_of_noOperand ho⟩⟩

theorem transfers_operand {R : Reg → Prop} {ea : Word} {bs : List Byte} (ho : storeOperand s i = (ea, bs.length)) :
    Transfers R (inOperand s i) s (s.storeBytes ea bs) :=
  Transfers.start.storeBytes fun k hk => ⟨k, by rw [ho]; exact hk, by rw [ho]⟩

theorem effect_storeFrom {ea : Word} {bs : List Byte} (hk : kindOf i = .store)
    (ho : storeOperand s i = (ea, bs.length)) (hm : bs.length ≠ 1 → canMisalign i) :
    Effect s i (storeFrom i s ea bs) := by
  unfold storeFrom
  split
  · next e hc => exact effect_raise (mayRaise_of_check (hk ▸ hc) hm)
  · exact ⟨_, transfers_operand ho, Or.inl ⟨rfl, operandDirty_storeBytes ho⟩⟩

theorem effect_storeFromU {ea : Word} {ra : Reg} {bs : List Byte} (hk : kindOf i = .store)
    (ho : storeOperand s i = (ea, bs.length)) (hra : mayWrite s i ra) (hm : bs.length ≠ 1 → canMisalign i) :
    Effect s i (storeFromU i s ea ra bs) := by
  refine effect_whenValid fun _ => ?_
  split
  · next e hc => exact effect_raise (mayRaise_of_check (hk ▸ hc) hm)
  · exact ⟨_, .reg ea (transfers_operand ho) hra, Or.inl ⟨rfl, operandDirty_storeBytes ho⟩⟩

theorem effect_blockResult {raised : Option FaultKind} {whole part : State} (hr : ∀ e, raised = some e → mayRaise i e)
    (hwhole : Transfers (mayWrite s i) (inOperand s i) s whole) (hdirty : OperandDirty s i whole)
    (hpart : Transfers (mayWrite s i) (inOperand s i) s part) : Effect s i (blockResult i raised s whole part) := by
  unfold blockResult
  split
  · exact ⟨whole, hwhole, Or.inl ⟨rfl, hdirty⟩⟩
  · exact ⟨part.drawn, hpart.draw, Or.inr ⟨_, hr _ rfl, rfl⟩⟩
  · exact effect_raise (hr _ rfl)

theorem effect_loadStringTo {rt : Reg} {ea : Word} {n : Nat} (hk : kindOf i = .load) (ho : (storeOperand s i).2 = 0)
    (hrun : ∀ k < (n + 3) / 4, mayWrite s i (runReg rt k)) : Effect s i (loadStringTo i s rt ea n) := by
  refine effect_blockResult (fun e he => ?_) (.loadString _ _ rt ea hrun) (operandDirty_of_noOperand ho)
    (.loadString _ _ rt ea hrun)
  obtain ⟨_, _, rfl⟩ := Option.map_eq_some_iff.mp he
  exact hk.symm

theorem effect_storeStringFrom {rs : Reg} {ea : Word} {n : Nat} (hk : kindOf i = .store)
    (ho : storeOperand s i = (ea, n)) : Effect s i (storeStringFrom i s rs ea n) := by
  have hA : ∀ k < n, inOperand s i (addrPlus ea k) := fun k hk => ⟨k, by rw [ho]; exact hk, by rw [ho]⟩
  refine effect_blockResult (fun e he => ?_) (.storeString _ rs ea hA) ?_ (.storeString _ rs ea hA)
  · obtain ⟨_, _, rfl⟩ := Option.map_eq_some_iff.mp he
    exact hk.symm
  · rw [State.storeString_all]
    exact operandDirty_storeBytes (by simpa using ho)

end

theorem mayRaise_of_checkMultiple {s : State} {i : Instr} {a : Word} {n : Nat} {e : FaultKind}
    (h : s.checkMultiple i a n (kindOf i) = some e) (hm : canMisalign i) : mayRaise i e := by
  rcases State.checkMultiple_cases h with rfl | ⟨b, rfl⟩
  · exact ⟨rfl, hm⟩
  · rfl

theorem toNat_runReg {first : Reg} {k : Nat} (hk : k < multipleCount first) :
    (runReg first k).toNat = first.toNat + k := by
  unfold multipleCount at hk
  have := first.isLt
  rw [runReg, BitVec.toNat_add, BitVec.toNat_ofNat]
  omega

theorem effect_execLmw (rt ra : Reg) (d : Imm) (s : State) : Effect s (.lmw rt ra d) (execLmw rt ra d s) := by
  have hrun : ∀ k < multipleCount rt, mayWrite s (.lmw rt ra d) (runReg rt k) := fun k hk => by
    rw [mayWrite, toNat_runReg hk]
    omega
  exact effect_whenValid fun _ => effect_blockResult (fun e he => mayRaise_of_checkMultiple he trivial)
    (.loadWords _ rt _ hrun) (operandDirty_of_noOperand rfl) (.loadWords _ rt _ hrun)

theorem effect_execStmw (rs ra : Reg) (d : Imm) (s : State) : Effect s (.stmw rs ra d) (execStmw rs ra d s) := by
  have hA : ∀ k < 4 * multipleCount rs, inOperand s (.stmw rs ra d) (addrPlus (s.eaImm ra d) k) :=
    fun k hk => ⟨k, hk, rfl⟩
  refine effect_blockResult (fun e he => mayRaise_of_checkMultiple he trivial) (.storeWords _ rs _ hA) ?_
    (.storeWords _ rs _ hA)
  rw [State.storeWords_all]
  exact operandDirty_storeBytes (by simp [storeOperand, multipleCount])

theorem effect_execLswx (rt ra rb : Reg) (s : State) : Effect s (.lswx rt ra rb) (execLswx rt ra rb s) := by
  refine effect_whenValid fun _ => ?_
  split
  · exact ⟨_, .draw (.reg _ .start (Or.inl rfl)), Or.inl ⟨rfl, operandDirty_of_noOperand rfl⟩⟩
  · split
    · exact effect_raise (e := .refused .lswxRange) trivial
    · exact effect_loadStringTo rfl rfl fun k hk => Or.inr ⟨k, hk, rfl⟩

theorem effect_exec (i : Instr) (s : State) : Effect s i (exec i s) := by
  cases i with
  | lbz | lbzx => exact effect_loadTo rfl rfl rfl (absurd rfl)
  | lhz | lhzx | lha | lhax | lwz | lwzx | lhbrx | lwbrx => exact effect_loadTo rfl rfl rfl fun _ => trivial
  | lbzu | lbzux => exact effect_loadToU rfl rfl (Or.inl rfl) (Or.inr rfl) (absurd rfl)
  | lhzu | lhzux | lhau | lhaux | lwzu | lwzux =>
    exact effect_loadToU rfl rfl (Or.inl rfl) (Or.inr rfl) fun _ => trivial
  | stb | stbx => exact effect_storeFrom rfl rfl (absurd rfl)
  | sth | sthx | stw | stwx | sthbrx | stwbrx => exact effect_storeFrom rfl rfl fun _ => trivial
  | stbu | stbux => exact effect_storeFromU rfl rfl rfl (absurd rfl)
  | sthu | sthux | stwu | stwux => exact effect_storeFromU rfl rfl rfl fun _ => trivial
  | lmw rt ra d => exact effect_execLmw rt ra d s
  | stmw rs ra d => exact effect_execStmw rs ra d s
  | lswi => exact effect_whenValid fun _ => effect_loadStringTo rfl rfl fun k hk => ⟨k, hk, rfl⟩
  | lswx rt ra rb => exact effect_execLswx rt ra rb s
  | stswi | stswx => exact effect_storeStringFrom rfl rfl

/-- What an executed instruction did: transfers, then the advance of the pc, or the record of an event of R174. -/
theorem exec_cases {i : Instr} {s t : State} (h : exec i s = .next t) :
    ∃ u, Transfers (mayWrite s i) (inOperand s i) s u ∧
      ((t = u.advance ∧ OperandDirty s i u) ∨ ∃ e, mayRaise i e ∧ t = u.raise e (encode i)) := by
  obtain ⟨u, hu, ⟨ho, hd⟩ | ⟨e, he, ho⟩⟩ := effect_exec i s <;> rw [h] at ho <;> cases ho
  · exact ⟨u, hu, Or.inl ⟨rfl, hd⟩⟩
  · exact ⟨u, hu, Or.inr ⟨e, he, rfl⟩⟩

/-! ## Statements about all instructions -/

/-- Settles O44. -/
theorem noInstructionIsRefused : Obligations.NoInstructionIsRefused := by
  intro i s
  obtain ⟨u, -, ⟨ho, -⟩ | ⟨e, -, ho⟩⟩ := effect_exec i s <;> exact ⟨_, ho⟩

/-- Settles O45. -/
theorem pcAdvancesByFourOrFaultIsRecorded : Obligations.PcAdvancesByFourOrFaultIsRecorded := by
  intro i s t hs h
  obtain ⟨u, hu, ⟨rfl, -⟩ | ⟨e, -, rfl⟩⟩ := exec_cases h
  · exact Or.inl ⟨hu.faultRecord_eq.trans hs, by rw [State.advance_pc, hu.pc_eq]⟩
  · exact Or.inr ⟨e, by rw [State.raise_faultRecord, hu.pc_eq], hu.pc_eq⟩

/-- Settles O46. -/
theorem eventsAreThoseOfTheTable : Obligations.EventsAreThoseOfTheTable := by
  intro i s t r hs h hr
  obtain ⟨u, hu, ⟨rfl, -⟩ | ⟨e, he, rfl⟩⟩ := exec_cases h
  · rw [State.advance_faultRecord, hu.faultRecord_eq, hs] at hr
    cases hr
  · cases hr
    exact he

/-- Settles O47. -/
theorem specialRegistersAreNeverWritten : Obligations.SpecialRegistersAreNeverWritten := by
  intro i s t h
  obtain ⟨u, hu, ⟨rfl, -⟩ | ⟨e, -, rfl⟩⟩ := exec_cases h <;> exact ⟨hu.cr_eq, hu.xer_eq, hu.launchKept⟩

/-- Settles O48. -/
theorem onlyDestinationRegistersChange : Obligations.OnlyDestinationRegistersChange := by
  intro i s t r h hr
  obtain ⟨u, hu, ⟨rfl, -⟩ | ⟨e, -, rfl⟩⟩ := exec_cases h <;> exact hu.x_eq hr

theorem storeOperand_of_load (s : State) {i : Instr} (h : isStore i = false) : (storeOperand s i).2 = 0 := by
  cases i with
  | stb | stbx | stbu | stbux | sth | sthx | sthu | sthux | stw | stwx | stwu | stwux => cases h
  | sthbrx | stwbrx | stmw | stswi | stswx => cases h
  | _ => rfl

theorem not_inOperand_of_load (s : State) {i : Instr} (h : isStore i = false) (a : Word) : ¬ inOperand s i a := by
  rintro ⟨k, hk, -⟩
  rw [storeOperand_of_load s h] at hk
  omega

/-- Settles O49: a load has no operand to store into. -/
theorem loadsLeaveMemoryAlone : Obligations.LoadsLeaveMemoryAlone := by
  intro i s t hi h
  obtain ⟨u, hu, ⟨rfl, -⟩ | ⟨e, -, rfl⟩⟩ := exec_cases h <;> exact hu.mem_eq (not_inOperand_of_load s hi)

theorem exec_keeps_inv {i : Instr} {s t : State} (hs : s.inv = true) (h : exec i s = .next t) : t.inv = true := by
  obtain ⟨u, hu, ⟨rfl, -⟩ | ⟨e, -, rfl⟩⟩ := exec_cases h
  · exact State.inv_advance (hu.inv_of_inv hs)
  · exact hu.inv_of_inv hs

end Sys2Proof.Machine
end

section
/-! PROOFS. One step of the machine (spec 10_state R24, 20_memory R42 and R56, 60_exceptions R170, R176, R177): where it
stops, what it records, that it keeps the invariant, and what a placed instruction does. -/

namespace Sys2Proof.Machine

open Sys2Proof.Stated

/-! ## Where a step goes -/

theorem State.isStale_iff (s : State) (a : Word) : s.isStale a = true ↔ ∃ k < 4, (addrPlus a k).toNat ∈ s.dirty := by
  simp [State.isStale]

theorem step_of_record {s : State} {r : FaultRecord} (h : s.faultRecord = some r) : step s = .fault (.recorded r) := by
  simp [step, h]

section
variable {s : State} (hf : s.faultRecord = none)
include hf

theorem step_of_ended (h : s.isInsnAddr s.pc = false) (he : s.textEnd = some s.pc) :
    step s = .refused .programEnded := by
  simp [step, hf, State.fetch, h, he]

theorem step_of_outside (h : s.isInsnAddr s.pc = false) (he : s.textEnd ≠ some s.pc) :
    step s = .refused .outsideProgramText := by
  simp [step, hf, State.fetch, h, he]

theorem step_of_stale (h : s.isInsnAddr s.pc = true) (hs : s.isStale s.pc = true) : step s = .next s.raiseStale := by
  simp [step, hf, State.fetch, h, hs]

section
variable (h : s.isInsnAddr s.pc = true) (hd : ∀ k < 4, (addrPlus s.pc k).toNat ∉ s.dirty)
include h hd

theorem step_of_undecoded {e : Undecoded} (he : decode (s.wordAt s.pc) = .error e) :
    step s = .next (s.raise (undecodedKind e) (s.wordAt s.pc)) := by
  simp [step, hf, State.fetch_eq_word h hd, he]

theorem step_of_decoded {i : Instr} (hi : decode (s.wordAt s.pc) = .ok i) : step s = exec i s := by
  simp [step, hf, State.fetch_eq_word h hd, hi]

end

theorem exists_next_of_isInsnAddr (h : s.isInsnAddr s.pc = true) : ∃ t, step s = .next t := by
  by_cases hs : s.isStale s.pc = true
  · exact ⟨_, step_of_stale hf h hs⟩
  · rw [State.isStale_iff] at hs
    push Not at hs
    cases hd : decode (s.wordAt s.pc) with
    | error e => exact ⟨_, step_of_undecoded hf h hs hd⟩
    | ok i =>
      rw [step_of_decoded hf h hs hd]
      exact noInstructionIsRefused i s

theorem step_ne_fault (f : Fault) : step s ≠ .fault f := by
  intro e
  by_cases h : s.isInsnAddr s.pc = true
  · obtain ⟨t, ht⟩ := exists_next_of_isInsnAddr hf h
    cases ht.symm.trans e
  · rw [Bool.not_eq_true] at h
    by_cases he : s.textEnd = some s.pc
    · cases (step_of_ended hf h he).symm.trans e
    · cases (step_of_outside hf h he).symm.trans e

end

/-- Settles O52. -/
theorem stepRunsTheDecodedInstruction : Obligations.StepRunsTheDecodedInstruction :=
  fun _ _ hf h hd hi => step_of_decoded hf h hd hi

/-- The whole decoding procedure refuses a word with the decoder's refusal or with an invalid form (R71). -/
theorem decodeChecked_error_cases {w : Word} {e : Undecoded} (h : decodeChecked w = .error e) :
    decode w = .error e ∨ ∃ i reason, decode w = .ok i ∧ invalidForm? i = some reason ∧ e = .invalidForm reason := by
  unfold decodeChecked at h
  split at h
  · next hd => exact Or.inl (hd.trans h)
  · next i hd =>
    split at h
    · next reason hi => exact Or.inr ⟨i, reason, hd, hi, by cases h; rfl⟩
    · cases h

/-- A refused word is recorded by the step or, an invalid form of the operand fields, by its meaning; either way with the
word at the pc. -/
theorem step_of_refusedWord {s : State} {e : Undecoded} (hf : s.faultRecord = none) (h : s.isInsnAddr s.pc = true)
    (hd : ∀ k < 4, (addrPlus s.pc k).toNat ∉ s.dirty) (he : decodeChecked (s.wordAt s.pc) = .error e) :
    step s = .next (s.raise (undecodedKind e) (s.wordAt s.pc)) := by
  rcases decodeChecked_error_cases he with hw | ⟨i, reason, hw, hi, rfl⟩
  · exact step_of_undecoded hf h hd hw
  · rw [step_of_decoded hf h hd hw, exec_of_invalid s hi, ← raise_eq_recorded, encodeOfDecodeIsTheWord _ _ hw]
    rfl

/-- Settles O53. -/
theorem stepRecordsUndecodedWords : Obligations.StepRecordsUndecodedWords :=
  fun _ hf h hd => ⟨step_of_refusedWord hf h hd, fun _ => step_of_refusedWord hf h hd⟩

/-- Settles O54. -/
theorem staleFetchIsRecorded : Obligations.StaleFetchIsRecorded :=
  fun s k hf h hk hd => step_of_stale hf h ((s.isStale_iff s.pc).mpr ⟨k, hk, hd⟩)

/-- Settles O56: with no record, the three outcomes are exclusive and the conditions on the pc cover every state. -/
theorem runEndsOutsideTheProgramText : Obligations.RunEndsOutsideTheProgramText := by
  intro s hf
  by_cases h : s.isInsnAddr s.pc = true
  · obtain ⟨t, ht⟩ := exists_next_of_isInsnAddr hf h
    simp [ht, h]
  · rw [Bool.not_eq_true] at h
    by_cases he : s.textEnd = some s.pc
    · simp [step_of_ended hf h he, h, he]
    · simp [step_of_outside hf h he, h, he]

/-- Settles O55: the fault is what a recorded state answers, and no other state answers one. -/
theorem faultRecordStopsTheMachine : Obligations.FaultRecordStopsTheMachine := by
  refine ⟨fun _ _ => step_of_record, fun _ _ h => (step_cases h).1, fun s f h => ?_⟩
  cases hf : s.faultRecord with
  | some r =>
    rw [step_of_record hf] at h
    cases h
    exact ⟨r, rfl, rfl⟩
  | none =>
    exact absurd h (step_ne_fault hf f)

/-! ## What every step keeps -/

/-- Settles O57: a recorded word or a stale fetch leaves memory, `Dirty` and the pc; an instruction keeps the invariant
through its transfers, one register or byte at a time. -/
theorem stepKeepsTheInvariant : Obligations.StepKeepsTheInvariant := by
  intro s t hs h
  obtain ⟨-, -, ⟨-, rfl⟩ | ⟨e, -, rfl⟩ | ⟨i, -, hi⟩⟩ := step_cases h
  · exact (State.inv_congr rfl rfl rfl rfl).trans hs
  · exact (State.inv_congr rfl rfl rfl rfl).trans hs
  · exact exec_keeps_inv hs hi

theorem storeOperand_isStore {s : State} {i : Instr} {a : Word} (h : inOperand s i a) : isStore i = true := by
  by_contra hi
  exact not_inOperand_of_load s (by simpa using hi) a h

/-- Settles O50: only transfers store, only into the operand, and each stored byte of the program text enters `Dirty`. -/
theorem dirtyIsExactlyTheStoredCode : Obligations.DirtyIsExactlyTheStoredCode := by
  intro s t h
  obtain ⟨-, -, ⟨-, rfl⟩ | ⟨e, -, rfl⟩ | ⟨i, hw, hi⟩⟩ := step_cases h
  · exact ⟨fun _ => id, fun _ => Or.inl, fun _ _ hn => (by cases hn), fun _ hb => absurd rfl hb⟩
  · exact ⟨fun _ => id, fun _ => Or.inl, fun _ _ hn => (by cases hn), fun _ hb => absurd rfl hb⟩
  · obtain ⟨u, hu, ht⟩ := exec_cases hi
    have hdirty : t.dirty = u.dirty := by obtain ⟨rfl, -⟩ | ⟨e, -, rfl⟩ := ht <;> rfl
    have hbyte : ∀ a, t.byteAt a = u.byteAt a := by obtain ⟨rfl, -⟩ | ⟨e, -, rfl⟩ := ht <;> exact fun _ => rfl
    rw [hdirty]
    refine ⟨fun _ => hu.mem_dirty_of_mem, fun c hc => ?_, fun j k hn hj hk hin => ?_, fun a hb hin => ?_⟩
    · refine (hu.mem_dirty hc).imp_right ?_
      rintro ⟨_, ⟨k, hk, rfl⟩, hin, rfl⟩
      exact ⟨i, k, hw, storeOperand_isStore ⟨k, hk, rfl⟩, hk, hin, rfl⟩
    · obtain rfl : i = j := Except.ok.inj (hw.symm.trans hj)
      obtain ⟨rfl, hd⟩ | ⟨e, -, rfl⟩ := ht
      · exact hd k hk hin
      · cases hn
    · exact hu.mem_dirty_of_byteAt_ne (by rw [← hbyte]; exact hb) hin

/-! ## A placed instruction -/

theorem State.withFetchWord_eq (s : State) (w : Word) : s.withFetchWord 32 w.toNat = s.placeWord w := by
  rw [State.withFetchWord, Nat.mod_eq_of_lt w.isLt, BitVec.ofNat_toNat, BitVec.setWidth_eq]

theorem toNat_addrPlus_inj {a : Word} {j k : Nat} (hj : j < 2 ^ 32) (hk : k < 2 ^ 32) :
    (addrPlus a j).toNat = (addrPlus a k).toNat ↔ j = k :=
  ⟨fun e => addrPlus_inj hj hk (BitVec.eq_of_toNat_eq e), fun e => by rw [e]⟩

/-- The four bytes of a placed word are its bytes in order (R41). -/
theorem Memory.read_writeWord (m : Memory) (a w : Word) {k : Nat} (hk : k < 4) :
    (m.writeWord a w).read (addrPlus a k).toNat = regByte w k := by
  have h0 : a.toNat = (addrPlus a 0).toNat := by rw [addrPlus_zero]
  simp only [Memory.writeWord, h0, Memory.read_write]
  interval_cases k <;> simp [toNat_addrPlus_inj]

theorem State.wordAt_placeWord (s : State) (w : Word) : (s.placeWord w).wordAt s.pc = w :=
  word_ext fun _ hk => by
    rw [State.regByte_wordAt _ _ hk]
    exact Memory.read_writeWord s.mem s.pc w hk

theorem State.isInsnAddr_placeWord (s : State) (w : Word) : (s.placeWord w).isInsnAddr s.pc = true := by
  have hregion : (s.placeWord w).codeRegion =
      if s.isInsnAddr s.pc then s.codeRegion else s.codeRegion ++ [{ base := s.pc, words := 1 }] := rfl
  rw [State.isInsnAddr, hregion]
  by_cases h : s.isInsnAddr s.pc = true
  · rw [if_pos h]
    exact h
  · have hnew : TextSegment.hasInsn { base := s.pc, words := 1 } s.pc = true := by
      simp only [TextSegment.hasInsn, TextSegment.has, BitVec.sub_self]
      rfl
    rw [if_neg h, List.any_append]
    simp [hnew]

theorem State.not_mem_dirty_placeWord (s : State) (w : Word) {k : Nat} (hk : k < 4) :
    (addrPlus s.pc k).toNat ∉ (s.placeWord w).dirty := by
  simp only [State.placeWord, List.mem_filter, Bool.not_eq_true', List.contains_eq_mem, decide_eq_false_iff_not, not_and,
    not_not, List.mem_map, List.mem_range]
  exact fun _ => ⟨k, hk, rfl⟩

/-- Settles O59: the placed word is an instruction of the program text, read back whole and in no part stale. -/
theorem placedInstructionRunsNext : Obligations.PlacedInstructionRunsNext := by
  intro s w i hw
  rw [s.withFetchWord_eq]
  refine ⟨?_, fun _ => rfl, rfl, rfl, rfl⟩
  refine step_of_decoded rfl (s.isInsnAddr_placeWord w) (fun k => s.not_mem_dirty_placeWord w) ?_
  rw [show (s.placeWord w).pc = s.pc from rfl, s.wordAt_placeWord]
  exact hw

end Sys2Proof.Machine
end

section
/-! PROOFS. The words of the two formats, and the values that half words and words are made of (spec 20_memory R41, R44;
43_byte_reverse R130; 30_encoding R61, R62). -/

namespace Sys2Proof.Machine

open Sys2Proof.Stated

/-! ## Words with their operand fields put in -/

theorem dWord_encodeD (op : Nat) (rt ra : Reg) (d : Imm) : dWord (encodeD op 0 0 0) rt ra d = encodeD op rt ra d := by
  have hrt : ∀ j, 5 ≤ j → rt.getLsbD j = false := fun _ => BitVec.getLsbD_of_ge rt _
  have hra : ∀ j, 5 ≤ j → ra.getLsbD j = false := fun _ => BitVec.getLsbD_of_ge ra _
  have hd : ∀ j, 16 ≤ j → d.getLsbD j = false := fun _ => BitVec.getLsbD_of_ge d _
  apply BitVec.eq_of_getLsbD_eq
  intro k hk
  simp only [dWord, encodeD, BitVec.getLsbD_or, BitVec.getLsbD_shiftLeft, BitVec.getLsbD_setWidth, BitVec.getLsbD_append,
    BitVec.getLsbD_ofNat, BitVec.ofNat_eq_ofNat]
  grind

theorem xWord_encodeX (xo : Nat) (rt ra rb : Reg) : xWord (encodeX xo 0 0 0) rt ra rb = encodeX xo rt ra rb := by
  have hrt : ∀ j, 5 ≤ j → rt.getLsbD j = false := fun _ => BitVec.getLsbD_of_ge rt _
  have hra : ∀ j, 5 ≤ j → ra.getLsbD j = false := fun _ => BitVec.getLsbD_of_ge ra _
  have hrb : ∀ j, 5 ≤ j → rb.getLsbD j = false := fun _ => BitVec.getLsbD_of_ge rb _
  apply BitVec.eq_of_getLsbD_eq
  intro k hk
  simp only [xWord, encodeX, BitVec.getLsbD_or, BitVec.getLsbD_shiftLeft, BitVec.getLsbD_setWidth, BitVec.getLsbD_append,
    BitVec.getLsbD_ofNat, BitVec.ofNat_eq_ofNat]
  grind

/-- The match of a D-form's row with the operand fields decodes to the instruction (R61, R67). -/
theorem decode_dWord {m : Word} {op : Nat} {rt ra : Reg} {d : Imm} {i : Instr} (hi : encode i = encodeD op rt ra d)
    (hm : m = encodeD op 0 0 0) : decode (dWord m rt ra d) = .ok i := by
  rw [hm, dWord_encodeD, ← hi, decode_encode]

/-- The match of an X-form's row with the operand fields decodes to the instruction (R62, R68). -/
theorem decode_xWord {m : Word} {xo : Nat} {rt ra rb : Reg} {i : Instr} (hi : encode i = encodeX xo rt ra rb)
    (hm : m = encodeX xo 0 0 0) : decode (xWord m rt ra rb) = .ok i := by
  rw [hm, xWord_encodeX, ← hi, decode_encode]

/-! ## Half words and words by their bytes -/

theorem byteOf_eq_regByte (w : Word) (k : Nat) : byteOf w k = regByte w k := rfl

theorem wordAt_eq_wordValue (s : State) (a : Word) : s.wordAt a = wordValue s a := rfl

@[simp] theorem halfBytes_append (x y : Byte) : halfBytes (x ++ y) = [x, y] := by
  rw [halfBytes, BitVec.extractLsb'_append_eq_left, BitVec.extractLsb'_append_eq_right]

@[simp] theorem reverseHalf_append (x y : Byte) : reverseHalf (x ++ y) = y ++ x := by
  rw [reverseHalf, BitVec.extractLsb'_append_eq_left, BitVec.extractLsb'_append_eq_right]

theorem half_eq_append (h : Half) : h = h.extractLsb' 8 8 ++ h.extractLsb' 0 8 := by
  rw [BitVec.extractLsb'_append_extractLsb'_eq_extractLsb' (start₁ := 0) (len₁ := 8) rfl]
  exact BitVec.extractLsb'_eq_self.symm

/-- The high-order half word of a register is its bytes 0 and 1. -/
theorem highHalf_eq (w : Word) : w.extractLsb' 16 16 = regByte w 0 ++ regByte w 1 :=
  (BitVec.extractLsb'_append_extractLsb'_eq_extractLsb' (len₁ := 8) (len₂ := 8) rfl).symm

/-- The low-order half word of a register is its bytes 2 and 3 (R110). -/
theorem lowHalf_eq (w : Word) : lowHalf w = regByte w 2 ++ regByte w 3 :=
  (BitVec.extractLsb'_append_extractLsb'_eq_extractLsb' (len₁ := 8) (len₂ := 8) rfl).symm

theorem reverseWord_eq (w : Word) : reverseWord w = regByte w 3 ++ regByte w 2 ++ regByte w 1 ++ regByte w 0 := rfl

/-- Byte `k` of a word put together from four bytes (R41). -/
theorem regByte_append (b : Fin 4 → Byte) (k : Fin 4) : regByte (b 0 ++ b 1 ++ b 2 ++ b 3) k = b k := by
  unfold regByte
  fin_cases k
  · exact (BitVec.extractLsb'_append_eq_of_le (by decide)).trans <|
      (BitVec.extractLsb'_append_eq_of_le (by decide)).trans BitVec.extractLsb'_append_eq_left
  · exact (BitVec.extractLsb'_append_eq_of_le (by decide)).trans <|
      (BitVec.extractLsb'_append_eq_of_le (by decide)).trans BitVec.extractLsb'_append_eq_right
  · exact (BitVec.extractLsb'_append_eq_of_le (by decide)).trans BitVec.extractLsb'_append_eq_right
  · exact BitVec.extractLsb'_append_eq_right

/-- Byte `k` of a reversed word is byte `3 - k` (R130). -/
theorem regByte_reverseWord (w : Word) {k : Nat} (hk : k < 4) : regByte (reverseWord w) k = regByte w (3 - k) :=
  regByte_append (fun j => regByte w (3 - j)) ⟨k, hk⟩

theorem State.halfAt_eq (s : State) (a : Word) :
    s.halfAt a = s.byteAt (addrPlus a 0) ++ s.byteAt (addrPlus a 1) := by
  rw [State.halfAt, addrPlus_zero]

theorem State.wordAt_eq (s : State) (a : Word) :
    s.wordAt a = s.byteAt (addrPlus a 0) ++ s.byteAt (addrPlus a 1) ++ s.byteAt (addrPlus a 2) ++
      s.byteAt (addrPlus a 3) := by
  rw [State.wordAt, addrPlus_zero]

/-! ## Extension -/

theorem zero_append_byte (b : Byte) : 0#24 ++ b = zextByte b :=
  BitVec.eq_of_toNat_eq <| (BitVec.toNat_append _ _).trans <| by
    rw [zextByte, BitVec.toNat_setWidth_of_le (by decide)]
    simp

theorem zero_append_half (h : Half) : 0#16 ++ h = zextHalf h :=
  BitVec.eq_of_toNat_eq <| (BitVec.toNat_append _ _).trans <| by
    rw [zextHalf, BitVec.toNat_setWidth_of_le (by decide)]
    simp

theorem zero_append_bytes (x y : Byte) : 0#16 ++ x ++ y = zextHalf (x ++ y) := by
  rw [← zero_append_half, BitVec.append_assoc]
  rfl

theorem toNat_halfAt (s : State) (a : Word) : (s.halfAt a).toNat = halfNat s a := by
  rw [State.halfAt, BitVec.toNat_append, ← Nat.shiftLeft_add_eq_or_of_lt (s.byteAt (addrPlus a 1)).isLt,
    Nat.shiftLeft_eq, halfNat]

theorem zextHalf_halfAt (s : State) (a : Word) : zextHalf (s.halfAt a) = BitVec.ofNat 32 (halfNat s a) := by
  rw [← toNat_halfAt, zextHalf, BitVec.ofNat_toNat]

theorem toInt_halfAt (s : State) (a : Word) : (s.halfAt a).toInt = halfInt s a := by
  rw [BitVec.toInt_eq_toNat_cond, toNat_halfAt, halfInt]
  have : 2 * halfNat s a < 2 ^ 16 ↔ halfNat s a < 0x8000 := by omega
  simp only [this]
  rfl

theorem sextHalf_halfAt (s : State) (a : Word) : sextHalf (s.halfAt a) = BitVec.ofInt 32 (halfInt s a) := by
  rw [← toInt_halfAt]
  rfl

/-! ## Accesses of one width after a store of another -/

theorem State.wordAt_storeBytes (s : State) (a : Word) (b0 b1 b2 b3 : Byte) :
    (s.storeBytes a [b0, b1, b2, b3]).wordAt a = b0 ++ b1 ++ b2 ++ b3 := by
  have h : ∀ k (hk : k < [b0, b1, b2, b3].length),
      (s.storeBytes a [b0, b1, b2, b3]).byteAt (addrPlus a k) = [b0, b1, b2, b3][k] :=
    s.byteAt_storeBytes a _ (by simp)
  rw [State.wordAt_eq, h 0 (by simp), h 1 (by simp), h 2 (by simp), h 3 (by simp)]
  rfl

theorem State.byteAt_storeBytes_wordBytes (s : State) (a w : Word) {k : Nat} (hk : k < 4) :
    (s.storeBytes a (wordBytes w)).byteAt (addrPlus a k) = regByte w k := by
  rw [← State.regByte_wordAt _ _ hk, wordBytes_eq, State.wordAt_storeBytes, regBytes_append]

/-- Settles O12: every access reads the byte array, and a stored word is its four bytes there. -/
theorem mixedWidthAccessesSeeTheBytes : Obligations.MixedWidthAccessesSeeTheBytes := by
  intro s a w h g
  have hb : ∀ k < 4, (s.storeBytes a (wordBytes w)).byteAt (addrPlus a k) = regByte w k :=
    fun _ => s.byteAt_storeBytes_wordBytes a w
  refine ⟨hb, ?_, ?_, ?_⟩
  · rw [State.halfAt_eq, hb 0 (by omega), hb 1 (by omega), highHalf_eq]
  · rw [State.halfAt, addrPlus_addrPlus, hb 2 (by omega), hb 3 (by omega)]
    exact (lowHalf_eq w).symm
  · have hstore : (s.storeBytes a (halfBytes h)).storeBytes (addrPlus a 2) (halfBytes g) =
        s.storeBytes a (halfBytes h ++ halfBytes g) := (s.storeBytes_append a _ _).symm
    rw [hstore, half_eq_append h, half_eq_append g, halfBytes_append, halfBytes_append]
    exact (State.wordAt_storeBytes ..).trans (BitVec.append_assoc.trans rfl)

end Sys2Proof.Machine
end

section
/-! PROOFS. The scalar loads and stores (spec 41_integer_load, 42_integer_store, 43_byte_reverse): the whole rule of each of
the four shapes, once, and then each instruction by its word and its value. -/

namespace Sys2Proof.Machine

open Sys2Proof.Stated

/-! ## The outcomes of a scalar access -/

/-- An instruction that records what its check raises traps as R46 and R47 say. -/
theorem traps_of_check {i : Instr} {s : State} {ea : Word} {n : Nat} {kind : AccessKind}
    (h : ∀ e, s.check i ea n kind = some e → exec i s = .next (s.raise e (encode i))) : Traps i s ea n kind :=
  ⟨s.alignTrap_of_aligned i ea n, fun ht ha => h _ (s.check_alignment ht ha),
    fun _ ⟨hk, hr, hb⟩ ha => h _ (s.check_dsi hk hr hb ha)⟩

theorem loadTo_of_check_none {i : Instr} {s : State} {ea v : Word} {n : Nat} {rt : Reg}
    (h : s.check i ea n .load = none) : loadTo i s ea n rt v = .next (s.setX rt v).advance := by
  rw [loadTo, h]

theorem loadToU_of_check_none {i : Instr} {s : State} {ea v : Word} {n : Nat} {rt ra : Reg} (hi : invalidForm? i = none)
    (h : s.check i ea n .load = none) :
    loadToU i s ea n rt ra v = .next ((s.setX rt v).setX ra ea).advance := by
  rw [loadToU, whenValid_of_valid s _ hi, h]

theorem memoryKept_of_eq {s t : State} (hm : t.mem = s.mem) (hd : t.dirty = s.dirty) : MemoryKept s t :=
  ⟨State.byteAt_congr hm, hd⟩

theorem stored_storeBytes (s : State) (ea : Word) {bs : List Byte} (hl : bs.length < 2 ^ 32) :
    Stored s (s.storeBytes ea bs) ea bs :=
  ⟨s.byteAt_storeBytes ea bs hl, fun a => s.byteAt_storeBytes_of_outside ea a bs, s.mem_dirty_storeBytes ea bs⟩

theorem completed_storeBytes (s : State) (ea : Word) (bs : List Byte) :
    Completed s (s.storeBytes ea bs).advance := by
  simp [Completed, LaunchKept]

section
variable {w : Word} {i : Instr} {s : State} {ea v : Word} {n : Nat} {rt ra : Reg} {bs : List Byte}

theorem loadRule_of_exec (hw : decode w = .ok i) (h : exec i s = loadTo i s ea n rt v) :
    LoadRule w i s ea n rt v := by
  refine ⟨hw, fun hadm htrap => ⟨(s.setX rt v).advance, ?_, s.x_setX_self rt v, fun _ => s.x_setX_ne v,
    memoryKept_of_eq rfl rfl, rfl, rfl, rfl, rfl, rfl, rfl, rfl, rfl, rfl, rfl⟩, traps_of_check fun e he => ?_⟩
  · rw [h, loadTo_of_check_none ((s.check_eq_none i ea n .load).mpr ⟨htrap, hadm⟩)]
  · rw [h, loadTo, he]
    rfl

theorem loadUpdateRule_of_exec (hw : decode w = .ok i)
    (hi : invalidForm? i = if ra = 0#5 || ra = rt then some .loadUpdate else none)
    (h : exec i s = loadToU i s ea n rt ra v) : LoadUpdateRule w i s ea n rt ra v := by
  refine ⟨hw, fun hbad => ?_, fun h0 hrt => ?_⟩
  · have hinv : invalidForm? i = some .loadUpdate := by rw [hi, if_pos (by simpa using hbad)]
    exact ⟨decodeChecked_of_invalid hw hinv, exec_of_invalid s hinv⟩
  · have hvalid : invalidForm? i = none := by rw [hi, if_neg (by simp [h0, hrt])]
    refine ⟨decodeChecked_of_valid hw hvalid, fun hadm htrap => ⟨((s.setX rt v).setX ra ea).advance, ?_, ?_,
      State.x_setX_self _ ra ea, fun r hr hra => ?_, memoryKept_of_eq rfl rfl, rfl, rfl, rfl, rfl, rfl, rfl, rfl, rfl, rfl,
      rfl⟩, traps_of_check fun e he => ?_⟩
    · rw [h, loadToU_of_check_none hvalid ((s.check_eq_none i ea n .load).mpr ⟨htrap, hadm⟩)]
    · rw [State.x_advance, State.x_setX_ne _ _ (Ne.symm hrt), State.x_setX_self]
    · rw [State.x_advance, State.x_setX_ne _ _ hra, State.x_setX_ne _ _ hr]
    · rw [h, loadToU, whenValid_of_valid s _ hvalid, he]
      rfl

theorem storeRule_of_exec (hw : decode w = .ok i) (hl : bs.length < 2 ^ 32) (h : exec i s = storeFrom i s ea bs) :
    StoreRule w i s ea bs := by
  refine ⟨hw, fun hadm htrap => ⟨(s.storeBytes ea bs).advance, ?_, stored_storeBytes s ea hl, s.x_storeBytes ea bs,
    completed_storeBytes s ea bs⟩, traps_of_check fun e he => ?_⟩
  · rw [h, storeFrom, (s.check_eq_none i ea bs.length .store).mpr ⟨htrap, hadm⟩]
  · rw [h, storeFrom, he]
    rfl

theorem storeUpdateRule_of_exec (hw : decode w = .ok i) (hl : bs.length < 2 ^ 32)
    (hi : invalidForm? i = if ra = 0#5 then some .storeUpdate else none)
    (h : exec i s = storeFromU i s ea ra bs) : StoreUpdateRule w i s ea ra bs := by
  refine ⟨hw, fun hbad => ?_, fun h0 => ?_⟩
  · have hinv : invalidForm? i = some .storeUpdate := by rw [hi, if_pos hbad]
    exact ⟨decodeChecked_of_invalid hw hinv, exec_of_invalid s hinv⟩
  · have hvalid : invalidForm? i = none := by rw [hi, if_neg h0]
    refine ⟨decodeChecked_of_valid hw hvalid, fun hadm htrap => ⟨((s.storeBytes ea bs).setX ra ea).advance, ?_,
      stored_storeBytes s ea hl, State.x_setX_self _ ra ea, fun r hr => ?_, ?_⟩, traps_of_check fun e he => ?_⟩
    · rw [h, storeFromU, whenValid_of_valid s _ hvalid, (s.check_eq_none i ea bs.length .store).mpr ⟨htrap, hadm⟩]
    · rw [State.x_advance, State.x_setX_ne _ _ hr, State.x_storeBytes]
    · exact completed_storeBytes s ea bs
    · rw [h, storeFromU, whenValid_of_valid s _ hvalid, he]
      rfl

end

/-! ## Loads -/

theorem byteValue_eq (s : State) (a : Word) : byteValue s a = zextByte (s.byteAt a) := zero_append_byte _

/-- Settles O13. -/
theorem byteLoadsZeroExtend : Obligations.ByteLoadsZeroExtend := by
  intro s rt ra rb d
  rw [byteValue_eq, byteValue_eq]
  exact ⟨loadRule_of_exec (decode_dWord rfl rfl) rfl, loadRule_of_exec (decode_xWord rfl rfl) rfl⟩

/-- Settles O14. -/
theorem halfLoadsZeroAndSignExtend : Obligations.HalfLoadsZeroAndSignExtend := by
  intro s rt ra rb d
  simp only [← zextHalf_halfAt, ← sextHalf_halfAt]
  exact ⟨loadRule_of_exec (decode_dWord rfl rfl) rfl, loadRule_of_exec (decode_xWord rfl rfl) rfl,
    loadRule_of_exec (decode_dWord rfl rfl) rfl, loadRule_of_exec (decode_xWord rfl rfl) rfl⟩

/-- Settles O15. -/
theorem wordLoads : Obligations.WordLoads := fun _ _ _ _ _ =>
  ⟨loadRule_of_exec (decode_dWord rfl rfl) rfl, loadRule_of_exec (decode_xWord rfl rfl) rfl⟩

/-- Settles O16. -/
theorem byteLoadsWithUpdate : Obligations.ByteLoadsWithUpdate := by
  intro s rt ra rb d
  rw [byteValue_eq, byteValue_eq]
  exact ⟨loadUpdateRule_of_exec (decode_dWord rfl rfl) rfl rfl, loadUpdateRule_of_exec (decode_xWord rfl rfl) rfl rfl⟩

/-- Settles O17. -/
theorem halfLoadsWithUpdate : Obligations.HalfLoadsWithUpdate := by
  intro s rt ra rb d
  simp only [← zextHalf_halfAt, ← sextHalf_halfAt]
  exact ⟨loadUpdateRule_of_exec (decode_dWord rfl rfl) rfl rfl, loadUpdateRule_of_exec (decode_xWord rfl rfl) rfl rfl,
    loadUpdateRule_of_exec (decode_dWord rfl rfl) rfl rfl, loadUpdateRule_of_exec (decode_xWord rfl rfl) rfl rfl⟩

/-- Settles O18. -/
theorem wordLoadsWithUpdate : Obligations.WordLoadsWithUpdate := fun _ _ _ _ _ =>
  ⟨loadUpdateRule_of_exec (decode_dWord rfl rfl) rfl rfl, loadUpdateRule_of_exec (decode_xWord rfl rfl) rfl rfl⟩

/-! ## Stores -/

theorem halfBytes_lowHalf (v : Word) : halfBytes (lowHalf v) = [byteOf v 2, byteOf v 3] := by
  rw [lowHalf_eq, halfBytes_append]
  rfl

/-- Settles O19. -/
theorem byteStores : Obligations.ByteStores := fun _ _ _ _ _ =>
  ⟨storeRule_of_exec (decode_dWord rfl rfl) (by simp) rfl, storeRule_of_exec (decode_xWord rfl rfl) (by simp) rfl⟩

/-- Settles O20. -/
theorem halfStores : Obligations.HalfStores := by
  intro s rs ra rb d
  rw [← halfBytes_lowHalf]
  exact ⟨storeRule_of_exec (decode_dWord rfl rfl) (by simp [halfBytes]) rfl,
    storeRule_of_exec (decode_xWord rfl rfl) (by simp [halfBytes]) rfl⟩

/-- Settles O21. -/
theorem wordStores : Obligations.WordStores := fun _ _ _ _ _ =>
  ⟨storeRule_of_exec (decode_dWord rfl rfl) (by simp) rfl, storeRule_of_exec (decode_xWord rfl rfl) (by simp) rfl⟩

/-- Settles O22. -/
theorem byteStoresWithUpdate : Obligations.ByteStoresWithUpdate := fun _ _ _ _ _ =>
  ⟨storeUpdateRule_of_exec (decode_dWord rfl rfl) (by simp) rfl rfl,
    storeUpdateRule_of_exec (decode_xWord rfl rfl) (by simp) rfl rfl⟩

/-- Settles O23. -/
theorem halfStoresWithUpdate : Obligations.HalfStoresWithUpdate := by
  intro s rs ra rb d
  rw [← halfBytes_lowHalf]
  exact ⟨storeUpdateRule_of_exec (decode_dWord rfl rfl) (by simp [halfBytes]) rfl rfl,
    storeUpdateRule_of_exec (decode_xWord rfl rfl) (by simp [halfBytes]) rfl rfl⟩

/-- Settles O24. -/
theorem wordStoresWithUpdate : Obligations.WordStoresWithUpdate := fun _ _ _ _ _ =>
  ⟨storeUpdateRule_of_exec (decode_dWord rfl rfl) (by simp) rfl rfl,
    storeUpdateRule_of_exec (decode_xWord rfl rfl) (by simp) rfl rfl⟩

/-! ## Byte reversal -/

theorem reverseWord_wordAt (s : State) (a : Word) : reverseWord (s.wordAt a) =
    s.byteAt (addrPlus a 3) ++ s.byteAt (addrPlus a 2) ++ s.byteAt (addrPlus a 1) ++ s.byteAt a := by
  rw [reverseWord_eq, s.regByte_wordAt a (by omega), s.regByte_wordAt a (by omega), s.regByte_wordAt a (by omega),
    s.regByte_wordAt a (by omega), addrPlus_zero]

/-- Settles O25. -/
theorem byteReverseLoads : Obligations.ByteReverseLoads := by
  intro s rt ra rb
  rw [zero_append_bytes, ← reverseHalf_append, ← reverseWord_wordAt]
  exact ⟨loadRule_of_exec (decode_xWord rfl rfl) rfl, loadRule_of_exec (decode_xWord rfl rfl) rfl⟩

theorem halfBytes_reverseHalf_lowHalf (v : Word) :
    halfBytes (reverseHalf (lowHalf v)) = [byteOf v 3, byteOf v 2] := by
  rw [lowHalf_eq, reverseHalf_append, halfBytes_append]
  rfl

theorem wordBytes_reverseWord (v : Word) :
    wordBytes (reverseWord v) = [byteOf v 3, byteOf v 2, byteOf v 1, byteOf v 0] := by
  rw [wordBytes_eq, regByte_reverseWord v (by omega), regByte_reverseWord v (by omega), regByte_reverseWord v (by omega),
    regByte_reverseWord v (by omega)]
  rfl

/-- Settles O26. -/
theorem byteReverseStores : Obligations.ByteReverseStores := by
  intro s rs ra rb
  rw [← halfBytes_reverseHalf_lowHalf, ← wordBytes_reverseWord]
  exact ⟨storeRule_of_exec (decode_xWord rfl rfl) (by simp [halfBytes]) rfl,
    storeRule_of_exec (decode_xWord rfl rfl) (by simp [wordBytes]) rfl⟩

/-! ## A load after a store -/

section
variable {s t : State}

theorem admits_of_launchKept (h : LaunchKept s t) (kind : AccessKind) (a : Word) : t.admits kind a = s.admits kind a := by
  obtain ⟨-, hload, hstore, -, -⟩ := h
  simp [State.admits, hload, hstore]

theorem alignTrap_of_launchKept (h : LaunchKept s t) (i : Instr) (a : Word) (n : Nat) :
    t.alignTrap i a n = s.alignTrap i a n := by
  obtain ⟨-, -, -, hrules, -⟩ := h
  simp [State.alignTrap, hrules]

theorem base_of_x_eq (h : ∀ r, t.x r = s.x r) (ra : Reg) : t.base ra = s.base ra := by
  simp [State.base, h]

theorem eaImm_of_x_eq (h : ∀ r, t.x r = s.x r) (ra : Reg) (d : Imm) : t.eaImm ra d = s.eaImm ra d := by
  rw [State.eaImm, State.eaImm, base_of_x_eq h]

theorem eaIdx_of_x_eq (h : ∀ r, t.x r = s.x r) (ra rb : Reg) : t.eaIdx ra rb = s.eaIdx ra rb := by
  rw [State.eaIdx, State.eaIdx, base_of_x_eq h, h]

end

/-- A store leaves registers and launch parameters, so a load at the same index address has the same EA and is admitted
as before: it reads the stored bytes. -/
theorem load_after_store {w w' : Word} {i j : Instr} {s : State} {ra rb rt : Reg} {bs : List Byte} {v : State → Word}
    (hstore : StoreRule w i s (s.eaIdx ra rb) bs) (hload : ∀ t, LoadRule w' j t (t.eaIdx ra rb) bs.length rt (v t))
    (has : Admitted s .store (s.eaIdx ra rb) bs.length) (hal : Admitted s .load (s.eaIdx ra rb) bs.length)
    (hti : s.alignTrap i (s.eaIdx ra rb) bs.length = false) (htj : s.alignTrap j (s.eaIdx ra rb) bs.length = false) :
    ∃ t u, exec i s = .next t ∧ exec j t = .next u ∧ t.eaIdx ra rb = s.eaIdx ra rb ∧ Stored s t (s.eaIdx ra rb) bs ∧
      u.x rt = v t := by
  obtain ⟨-, hdone, -⟩ := hstore
  obtain ⟨t, ht, hst, hx, -, -, -, -, -, hlaunch⟩ := hdone has hti
  have hea := eaIdx_of_x_eq hx ra rb
  obtain ⟨-, hdone, -⟩ := hload t
  rw [hea, alignTrap_of_launchKept hlaunch] at hdone
  obtain ⟨u, hu, hv, -⟩ := hdone (fun k hk => (admits_of_launchKept hlaunch _ _).trans (hal k hk)) htj
  exact ⟨t, u, ht, hu, hea, hst, hv⟩

theorem wordAt_of_stored {s t : State} {ea v : Word} (h : Stored s t ea (wordBytes v)) : t.wordAt ea = v := by
  obtain ⟨hb, -, -⟩ := h
  exact word_ext fun k hk => by
    rw [t.regByte_wordAt ea hk, hb k (by simpa [wordBytes] using hk)]
    interval_cases k <;> rfl

theorem halfAt_of_stored {s t : State} {ea : Word} {h : Half} (hst : Stored s t ea (halfBytes h)) : t.halfAt ea = h := by
  obtain ⟨hb, -, -⟩ := hst
  rw [State.halfAt_eq, hb 0 (by simp [halfBytes]), hb 1 (by simp [halfBytes])]
  exact (half_eq_append h).symm

section
variable {i j : Instr} {s : State} {ra rb rt : Reg}

theorem loadWord_after_storeWord {v : Word} {f : Word → Word}
    (hi : exec i s = storeFrom i s (s.eaIdx ra rb) (wordBytes v))
    (hj : ∀ t, exec j t = loadTo j t (t.eaIdx ra rb) 4 rt (f (t.wordAt (t.eaIdx ra rb))))
    (has : Admitted s .store (s.eaIdx ra rb) 4) (hal : Admitted s .load (s.eaIdx ra rb) 4)
    (hti : s.alignTrap i (s.eaIdx ra rb) 4 = false) (htj : s.alignTrap j (s.eaIdx ra rb) 4 = false) :
    ∃ t u, exec i s = .next t ∧ exec j t = .next u ∧ u.x rt = f v := by
  obtain ⟨t, u, ht, hu, hea, hst, hv⟩ := load_after_store (storeRule_of_exec (decode_encode i) (by simp [wordBytes]) hi)
    (fun t => loadRule_of_exec (decode_encode j) (hj t)) has hal hti htj
  exact ⟨t, u, ht, hu, by rw [hv, hea, wordAt_of_stored hst]⟩

theorem loadHalf_after_storeHalf {h : Half} {f : Half → Word}
    (hi : exec i s = storeFrom i s (s.eaIdx ra rb) (halfBytes h))
    (hj : ∀ t, exec j t = loadTo j t (t.eaIdx ra rb) 2 rt (f (t.halfAt (t.eaIdx ra rb))))
    (has : Admitted s .store (s.eaIdx ra rb) 2) (hal : Admitted s .load (s.eaIdx ra rb) 2)
    (hti : s.alignTrap i (s.eaIdx ra rb) 2 = false) (htj : s.alignTrap j (s.eaIdx ra rb) 2 = false) :
    ∃ t u, exec i s = .next t ∧ exec j t = .next u ∧ u.x rt = f h := by
  obtain ⟨t, u, ht, hu, hea, hst, hv⟩ := load_after_store (storeRule_of_exec (decode_encode i) (by simp [halfBytes]) hi)
    (fun t => loadRule_of_exec (decode_encode j) (hj t)) has hal hti htj
  exact ⟨t, u, ht, hu, by rw [hv, hea, halfAt_of_stored hst]⟩

end

theorem reverseWord_reverseWord (v : Word) : reverseWord (reverseWord v) = v :=
  word_ext fun k hk => by
    rw [regByte_reverseWord _ hk, regByte_reverseWord _ (by omega), show 3 - (3 - k) = k by omega]

theorem zextHalf_reverseHalf_lowHalf (v : Word) :
    zextHalf (reverseHalf (lowHalf v)) = 0#16 ++ byteOf v 3 ++ byteOf v 2 := by
  rw [lowHalf_eq, reverseHalf_append, zero_append_bytes]
  rfl

theorem reverseHalf_reverseHalf (h : Half) : reverseHalf (reverseHalf h) = h := by
  rw [half_eq_append h, reverseHalf_append, reverseHalf_append]

/-- Settles O27: two reversals cancel, one reversal is seen by the access that does not reverse. -/
theorem byteReverseRoundTrips : Obligations.ByteReverseRoundTrips := by
  intro s rs rt ra rb
  refine ⟨fun has hal => ⟨fun hti htj => ?_, fun hti htj => ?_, fun hti htj => ?_⟩,
    fun has hal => ⟨fun hti htj => ?_, fun hti htj => ?_, fun hti htj => ?_⟩⟩
  · rw [← reverseWord_reverseWord (s.x rs)]
    exact loadWord_after_storeWord (f := reverseWord) rfl (fun _ => rfl) has hal hti htj
  · obtain ⟨t, u, ht, hu, hv⟩ := loadWord_after_storeWord (f := id) rfl (fun _ => rfl) has hal hti htj
    exact ⟨t, u, ht, hu, fun k hk => hv ▸ regByte_reverseWord _ hk⟩
  · obtain ⟨t, u, ht, hu, hv⟩ := loadWord_after_storeWord (f := reverseWord) rfl (fun _ => rfl) has hal hti htj
    exact ⟨t, u, ht, hu, fun k hk => hv ▸ regByte_reverseWord _ hk⟩
  · have hv : 0#16 ++ (s.x rs).extractLsb' 0 16 = zextHalf (reverseHalf (reverseHalf (lowHalf (s.x rs)))) := by
      rw [reverseHalf_reverseHalf]
      exact zero_append_half _
    rw [hv]
    exact loadHalf_after_storeHalf (f := fun h => zextHalf (reverseHalf h)) rfl (fun _ => rfl) has hal hti htj
  · rw [← zextHalf_reverseHalf_lowHalf]
    exact loadHalf_after_storeHalf (f := zextHalf) rfl (fun _ => rfl) has hal hti htj
  · rw [← zextHalf_reverseHalf_lowHalf]
    exact loadHalf_after_storeHalf (f := fun h => zextHalf (reverseHalf h)) rfl (fun _ => rfl) has hal hti htj

/-! ## Update forms as two instructions -/

theorem check_byte_load {s : State} {a : Word} (h : s.admits .load a = true) (i : Instr) : s.check i a 1 .load = none :=
  (s.check_eq_none i a 1 .load).mpr ⟨s.alignTrap_byte i a, fun k hk => by
    obtain rfl : k = 0 := by omega
    rwa [addrPlus_zero]⟩

/-- Settles O51: a valid update form has rA ≠ 0, so its EA is that of the form without update, and the sum. -/
theorem updateLoadIsLoadThenAdd : Obligations.UpdateLoadIsLoadThenAdd := by
  intro s rt ra rb d h0 hrt
  refine ⟨fun h => ⟨_, loadTo_of_check_none (check_byte_load h _), ?_⟩,
    fun h => ⟨_, loadTo_of_check_none (check_byte_load h _), ?_⟩⟩
  · rw [← s.eaImmU_eq_eaImm d h0] at h ⊢
    exact loadToU_of_check_none (by simp [invalidForm?, h0, hrt]) (check_byte_load h _)
  · rw [← s.eaIdxU_eq_eaIdx rb h0] at h ⊢
    exact loadToU_of_check_none (by simp [invalidForm?, h0, hrt]) (check_byte_load h _)

end Sys2Proof.Machine
end

section
/-! PROOFS. What an instruction that moves a block leaves: completed, or interrupted by a DSI (spec 44_load_store_multiple
R144; 45_load_store_string R160), said of any sequence of transfers. -/

namespace Sys2Proof.Machine

open Sys2Proof.Stated

section
variable {R : Reg → Prop} {A : Word → Prop} {s u : State}

theorem completed_of_transfers (h : Transfers R A s u) (hfree : u.freeCount = s.freeCount) : Completed s u.advance :=
  ⟨congrArg (· + 4#32) h.pc_eq, h.faultRecord_eq, h.cr_eq, h.xer_eq, hfree, h.launchKept⟩

theorem interrupted_of_transfers (h : Transfers R A s u) (i : Instr) (a : Word) (kind : AccessKind) :
    Interrupted s (u.drawn.raise (.dsi a kind) (encode i)) i a kind :=
  ⟨by rw [State.raise_faultRecord, State.drawn_pc, h.pc_eq], h.pc_eq, h.cr_eq, h.xer_eq, h.launchKept⟩

theorem memoryKept_of_transfers (h : Transfers R (fun _ => False) s u) : MemoryKept s u :=
  memoryKept_of_eq (h.mem_eq fun _ => id).1 (h.mem_eq fun _ => id).2

theorem x_of_transfers (h : Transfers (fun _ => False) A s u) (r : Reg) : u.x r = s.x r := h.x_eq id

end

/-! ## The transfers of each block, with nothing else touched -/

section
variable (s : State) (pick clear : Nat → Bool) (first : Reg) (ea : Word) (n : Nat)

theorem transfers_loadWords : Transfers (fun _ => True) (fun _ => False) s (s.loadWords pick first ea n) :=
  .loadWords pick first ea fun _ _ => trivial

theorem transfers_storeWords : Transfers (fun _ => False) (fun _ => True) s (s.storeWords pick first ea n) :=
  .storeWords pick first ea fun _ _ => trivial

theorem transfers_loadString : Transfers (fun _ => True) (fun _ => False) s (s.loadString clear pick first ea n) :=
  .loadString clear pick first ea fun _ _ => trivial

theorem transfers_storeString : Transfers (fun _ => False) (fun _ => True) s (s.storeString pick first ea n) :=
  .storeString pick first ea fun _ _ => trivial

end

end Sys2Proof.Machine
end

section
/-! PROOFS. The two multiples (spec 44_load_store_multiple R140 to R146): the whole block, the misaligned EA, the DSI
part-way, and the restore of registers. -/

namespace Sys2Proof.Machine

open Sys2Proof.Stated

theorem exec_lmw (s : State) {rt ra : Reg} (d : Imm) (h : ra.toNat < rt.toNat) :
    exec (.lmw rt ra d) s = blockResult (.lmw rt ra d)
      (s.checkMultiple (.lmw rt ra d) (s.eaImm ra d) (multipleCount rt) .load) s
      (s.loadWords (fun _ => true) rt (s.eaImm ra d) (multipleCount rt))
      (s.loadWords (s.pickWord .load (s.eaImm ra d)) rt (s.eaImm ra d) (multipleCount rt)) :=
  whenValid_of_valid s _ (by simp [invalidForm?, h])

theorem exec_stmw (s : State) (rs ra : Reg) (d : Imm) :
    exec (.stmw rs ra d) s = blockResult (.stmw rs ra d)
      (s.checkMultiple (.stmw rs ra d) (s.eaImm ra d) (multipleCount rs) .store) s
      (s.storeWords (fun _ => true) rs (s.eaImm ra d) (multipleCount rs))
      (s.storeWords (s.pickWord .store (s.eaImm ra d)) rs (s.eaImm ra d) (multipleCount rs)) := rfl

theorem multipleCount_pos (first : Reg) : 0 < multipleCount first := Nat.sub_pos_of_lt first.isLt

theorem multipleCount_le (first : Reg) : multipleCount first ≤ 32 := Nat.sub_le _ _

/-- A register below the first of a multiple is none of its registers (R140). -/
theorem ne_runReg_of_lt {first r : Reg} (h : r.toNat < first.toNat) {k : Nat} (hk : k < multipleCount first) :
    r ≠ runReg first k := by
  rintro rfl
  rw [toNat_runReg hk] at h
  omega

/-- A register from the first of a multiple on is one of its registers (R140). -/
theorem eq_runReg_of_le {first r : Reg} (h : first.toNat ≤ r.toNat) :
    r.toNat - first.toNat < multipleCount first ∧ r = runReg first (r.toNat - first.toNat) := by
  have hlt : r.toNat - first.toNat < multipleCount first := by
    have := r.isLt
    unfold multipleCount
    omega
  refine ⟨hlt, BitVec.eq_of_toNat_eq ?_⟩
  rw [toNat_runReg hlt]
  omega

/-! ## Whole blocks -/

/-- Settles O28. -/
theorem loadMultipleLoadsTheBlock : Obligations.LoadMultipleLoadsTheBlock := by
  intro s rt ra d
  refine ⟨decode_dWord rfl rfl, fun hvalid halign hadm => ?_⟩
  have hu := transfers_loadWords s (fun _ => true) rt (s.eaImm ra d) (multipleCount rt)
  have hmem := memoryKept_of_transfers hu
  refine ⟨State.advance _, ?_, fun j hj => ?_, fun r hr => ?_, hmem,
    completed_of_transfers hu (by rw [State.loadWords_eq])⟩
  · rw [exec_lmw s d hvalid, s.checkMultiple_eq_none (multipleCount_pos rt) halign hadm]
    rfl
  · exact (s.x_loadWords _ rt _ (multipleCount_le rt) hj).trans (if_pos rfl)
  · exact s.x_loadWords_outside _ rt _ _ fun k => ne_runReg_of_lt hr

theorem length_multipleBytes (s : State) (rs : Reg) (n : Nat) : (multipleBytes s rs n).length = 4 * n := by
  simp [multipleBytes]

/-- Settles O29: the words stored one after another are one store of their bytes. -/
theorem storeMultipleStoresTheBlock : Obligations.StoreMultipleStoresTheBlock := by
  intro s rs ra d
  refine ⟨decode_dWord rfl rfl, fun halign hadm => ?_⟩
  have hall : s.storeWords (fun _ => true) rs (s.eaImm ra d) (multipleCount rs) =
      s.storeBytes (s.eaImm ra d) (multipleBytes s rs (32 - rs.toNat)) := s.storeWords_all ..
  refine ⟨State.advance _, ?_, stored_storeBytes s _ ?_, s.x_storeBytes _ _, completed_storeBytes s _ _⟩
  · rw [exec_stmw, s.checkMultiple_eq_none (multipleCount_pos rs) halign hadm, hall]
    rfl
  · rw [length_multipleBytes]
    omega

/-- A stored block read back word by word (R141, R142). -/
theorem wordValue_of_stored_multiple {s t : State} {ea : Word} {rs : Reg} {n : Nat}
    (h : Stored s t ea (multipleBytes s rs n)) {j : Nat} (hj : j < n) :
    wordValue t (addrPlus ea (4 * j)) = s.x (runReg rs j) := by
  obtain ⟨hb, -, -⟩ := h
  rw [← wordAt_eq_wordValue]
  refine word_ext fun k hk => ?_
  rw [t.regByte_wordAt _ hk, addrPlus_addrPlus, hb (4 * j + k) (by rw [length_multipleBytes]; omega)]
  have hdiv : (4 * j + k) / 4 = j := by omega
  have hmod : (4 * j + k) % 4 = k := by omega
  simp [multipleBytes, hdiv, hmod, byteOf_eq_regByte]

/-- Settles O33: the store leaves the registers, so the load has the same block, and finds each register's word in it. -/
theorem storeThenLoadMultipleRestores : Obligations.StoreThenLoadMultipleRestores := by
  intro s rs ra d hvalid halign has hal
  obtain ⟨t, ht, hst, hx, hpc, -, -, -, -, hlaunch⟩ := (storeMultipleStoresTheBlock s rs ra d).2 halign has
  have hload := (loadMultipleLoadsTheBlock t rs ra d).2 hvalid
  rw [eaImm_of_x_eq hx] at hload
  obtain ⟨u, hu, hrun, hlow, -, hpc', -⟩ :=
    hload halign fun k hk => (admits_of_launchKept hlaunch _ _).trans (hal k hk)
  refine ⟨t, u, ht, hu, fun r => ?_, ?_⟩
  · by_cases hr : r.toNat < rs.toNat
    · rw [hlow r hr, hx]
    · obtain ⟨hlt, hreg⟩ := eq_runReg_of_le (Nat.le_of_not_lt hr)
      rw [hreg, hrun _ hlt, wordValue_of_stored_multiple hst hlt]
  · rw [hpc', hpc, BitVec.add_assoc]
    rfl

/-! ## Misaligned and interrupted blocks -/

/-- The first word of a misaligned multiple raises Alignment unless a byte of it is rejected and DSI comes first (R145). -/
theorem State.checkMultiple_alignment (s : State) {i : Instr} (hi : isMultiple i = true) {a : Word} (n : Nat)
    {kind : AccessKind} (ha : a.toNat % 4 ≠ 0) (h : s.alignBeforeDSI = true ∨ Admitted s kind a 4) :
    s.checkMultiple i a n kind = some (.alignment a kind) := by
  have htrap : s.alignTrap i a 4 = true := by rw [s.alignTrap_multiple hi, bne_iff_ne]; exact ha
  rw [State.checkMultiple, s.check_alignment htrap h.symm]

/-- Settles O30. -/
theorem misalignedMultipleTakesAlignment : Obligations.MisalignedMultipleTakesAlignment := by
  intro s rt ra d ha
  refine ⟨fun hvalid h => ?_, fun h => ?_⟩
  · rw [exec_lmw s d hvalid, s.checkMultiple_alignment rfl _ ha h]
    rfl
  · rw [exec_stmw, s.checkMultiple_alignment rfl _ ha h]
    rfl

/-- Settles O31: the words that were loaded are those the free choice of R144 names. -/
theorem loadMultipleInterruptedByDsi : Obligations.LoadMultipleInterruptedByDsi := by
  intro s rt ra d k hvalid hpast hrej
  obtain ⟨hk, hr, hb⟩ := hrej
  have hu := transfers_loadWords s (s.pickWord .load (s.eaImm ra d)) rt (s.eaImm ra d) (multipleCount rt)
  have hmem := memoryKept_of_transfers hu
  refine ⟨State.raise (State.drawn _) _ _, s.pickWord .load (s.eaImm ra d), ?_, interrupted_of_transfers hu _ _ _,
    fun j _ hj b hb => ?_, fun j hj => ?_, fun r hr => ?_, hmem⟩
  · rw [exec_lmw s d hvalid, s.checkMultiple_dsi (n := multipleCount rt) hpast hk hr hb]
    rfl
  · rw [addrPlus_addrPlus]
    exact State.pickWord_admits hj hb
  · exact s.x_loadWords _ rt _ (multipleCount_le rt) hj
  · exact s.x_loadWords_outside _ rt _ _ fun k => ne_runReg_of_lt hr

/-- Settles O32: the words that were stored are those the free choice of R144 names. -/
theorem storeMultipleInterruptedByDsi : Obligations.StoreMultipleInterruptedByDsi := by
  intro s rs ra d k hpast hrej
  obtain ⟨hk, hr, hb⟩ := hrej
  have hu := transfers_storeWords s (s.pickWord .store (s.eaImm ra d)) rs (s.eaImm ra d) (multipleCount rs)
  have hx := x_of_transfers hu
  refine ⟨State.raise (State.drawn _) _ _, s.pickWord .store (s.eaImm ra d), ?_, interrupted_of_transfers hu _ _ _,
    fun j _ hj b hb => ?_, fun j hj => ?_, fun a => s.byteAt_storeWords_outside _ rs _ _,
    s.mem_dirty_storeWords _ rs _ _, hx⟩
  · rw [exec_stmw, s.checkMultiple_dsi (n := multipleCount rs) hpast hk hr hb]
    rfl
  · rw [addrPlus_addrPlus]
    exact State.pickWord_admits hj hb
  · have hn : 4 * multipleCount rs < 2 ^ 32 := by have := multipleCount_le rs; omega
    refine word_ext fun b hb => ?_
    rw [← wordAt_eq_wordValue, State.regByte_wordAt _ _ hb, addrPlus_addrPlus]
    refine (s.byteAt_storeWords _ rs _ hn hj hb).trans ?_
    rw [apply_ite (regByte · b), ← wordAt_eq_wordValue, State.regByte_wordAt _ _ hb, addrPlus_addrPlus]

end Sys2Proof.Machine
end

section
/-! PROOFS. The four string instructions (spec 45_load_store_string R150 to R160): the run of registers filled or stored, the
refusals of lswx, the DSI part-way, and the copy of a block. -/

namespace Sys2Proof.Machine

open Sys2Proof.Stated

/-! ## The instructions past their refusals -/

theorem not_inRun {first r : Reg} {n : Nat} (hn : n ≤ 128) (h : ∀ k < (n + 3) / 4, r ≠ runReg first k) :
    inRun first n r = false := by
  rw [← Bool.not_eq_true, inRun_iff first r hn]
  rintro ⟨k, hk, rfl⟩
  exact h k hk rfl

theorem runReg_zero (first : Reg) : runReg first 0 = first := by simp [runReg]

theorem immediateCount_le_128 (nb : Count) : immediateCount nb ≤ 128 := (immediateCount_le nb).trans (by decide)

theorem exec_lswi (s : State) {rt ra : Reg} {nb : Count} (h : ∀ k < (immediateCount nb + 3) / 4, ra ≠ runReg rt k) :
    exec (.lswi rt ra nb) s = loadStringTo (.lswi rt ra nb) s rt (s.base ra) (immediateCount nb) :=
  whenValid_of_valid s _ (by simp [invalidForm?, not_inRun (immediateCount_le_128 nb) h])

/-- lswx with rD different from rA and rB is a valid form; its byte count and its run decide (R154, R157). -/
theorem exec_lswx (s : State) {rt ra rb : Reg} (hra : rt ≠ ra) (hrb : rt ≠ rb) :
    exec (.lswx rt ra rb) s =
      if s.xerByteCount = 0 then .next (s.setX rt (Config.freeWord s.freeCount)).drawn.advance
      else if inRun rt s.xerByteCount ra || inRun rt s.xerByteCount rb then s.raiseAt (.lswx rt ra rb) (.refused .lswxRange)
      else loadStringTo (.lswx rt ra rb) s rt (s.eaIdx ra rb) s.xerByteCount :=
  whenValid_of_valid s _ (by simp [invalidForm?, hra, hrb])

theorem exec_lswx_outside (s : State) {rt ra rb : Reg} (h0 : s.xerByteCount ≠ 0)
    (h : ∀ k < (s.xerByteCount + 3) / 4, ra ≠ runReg rt k ∧ rb ≠ runReg rt k) :
    exec (.lswx rt ra rb) s = loadStringTo (.lswx rt ra rb) s rt (s.eaIdx ra rb) s.xerByteCount := by
  have hfirst := h 0 (by omega)
  rw [runReg_zero] at hfirst
  have hn := s.xerByteCount_lt.le
  rw [exec_lswx s hfirst.1.symm hfirst.2.symm, if_neg h0, not_inRun hn fun k hk => (h k hk).1,
    not_inRun hn fun k hk => (h k hk).2]
  rfl

/-- Settles O37. -/
theorem loadStringIndexedCountZero : Obligations.LoadStringIndexedCountZero := by
  intro s rt ra rb h0 hra hrb
  refine ⟨_, (exec_lswx s hra hrb).trans (if_pos h0), s.x_setX_self rt _, fun _ => s.x_setX_ne _,
    memoryKept_of_eq rfl rfl, rfl, rfl, rfl, rfl, rfl, rfl, rfl, rfl, rfl, rfl⟩

/-- Settles O38: the range test of R157 (b) comes before any access. -/
theorem loadStringIndexedBaseInRunIsRefused : Obligations.LoadStringIndexedBaseInRunIsRefused := by
  intro s rt ra rb k hra hrb h0 hk hrun
  have hin : ∀ r, r = runReg rt k → inRun rt s.xerByteCount r = true :=
    fun r hr => (inRun_iff rt r s.xerByteCount_lt.le).mpr ⟨k, hk, hr⟩
  have htest : (inRun rt s.xerByteCount ra || inRun rt s.xerByteCount rb) = true := by
    rw [Bool.or_eq_true]
    exact hrun.imp (hin ra) (hin rb)
  rw [exec_lswx s hra hrb, if_neg h0, if_pos htest]
  rfl

/-! ## Load strings -/

section
variable {i : Instr} {s : State} {first : Reg} {ea : Word} {n : Nat}

theorem loadStringTo_completes (hn : n ≤ 128) (hadm : Admitted s .load ea n) :
    ∃ t, loadStringTo i s first ea n = .next t ∧ StringLoaded s t first ea n ∧ MemoryKept s t ∧ Completed s t := by
  have hu := transfers_loadString s (fun _ => true) (fun _ => true) first ea n
  have hmem := memoryKept_of_transfers hu
  refine ⟨State.advance _, ?_, ⟨fun j hj => ?_, fun j hj hj' => ?_, fun r => s.x_loadString_outside _ _ first ea n⟩, hmem,
    completed_of_transfers hu (by rw [State.loadString_eq])⟩
  · rw [loadStringTo, (s.firstRejected_eq_none .load ea n).mpr hadm]
    rfl
  · exact (s.regByte_loadString_all first ea hn (by omega)).trans (if_pos hj)
  · exact (s.regByte_loadString_all first ea hn hj').trans (if_neg (Nat.not_lt.mpr hj))

theorem partlyLoaded_loadString (hn : n ≤ 128) :
    PartlyLoaded s (s.loadString (s.pickClear ea n) (s.pickByte .load ea) first ea n) first ea n := by
  refine ⟨⟨fun j => j < n && s.pickByte .load ea j, fun q => 4 * q < n && s.pickClear ea n (4 * q), fun j hj => ?_,
    fun q hq => ?_, fun j hj => ?_⟩, fun r => s.x_loadString_outside _ _ first ea n⟩
  · simp only [Bool.and_eq_true, decide_eq_true_eq] at hj
    exact ⟨hj.1, State.pickByte_admits hj.2⟩
  · simp only [Bool.and_eq_true, decide_eq_true_eq] at hq ⊢
    exact State.pickClear_transfers hq.2
  · simp only [Bool.and_eq_true, decide_eq_true_eq]
    exact s.regByte_loadString _ _ first ea hn (by omega)

theorem loadStringTo_interrupted (hn : n ≤ 128) {k : Nat} (hrej : RejectedAt s .load ea n k) :
    ∃ t, loadStringTo i s first ea n = .next t ∧ Interrupted s t i (addrPlus ea k) .load ∧
      PartlyLoaded s t first ea n ∧ MemoryKept s t := by
  obtain ⟨hk, hr, hb⟩ := hrej
  have hu := transfers_loadString s (s.pickByte .load ea) (s.pickClear ea n) first ea n
  have hmem := memoryKept_of_transfers hu
  have hpart : PartlyLoaded s _ first ea n := partlyLoaded_loadString hn
  refine ⟨State.raise (State.drawn _) _ _, ?_, interrupted_of_transfers hu i _ _, hpart, hmem⟩
  rw [loadStringTo, s.firstRejected_eq_some .load ea hk hr hb]
  rfl

end

/-- Settles O35. -/
theorem loadStringImmediate : Obligations.LoadStringImmediate := by
  intro s rt ra nb
  refine ⟨decode_xWord rfl rfl, fun hrun hadm => ?_⟩
  rw [exec_lswi s hrun]
  exact loadStringTo_completes (immediateCount_le_128 nb) hadm

/-- Settles O36. -/
theorem loadStringIndexed : Obligations.LoadStringIndexed := by
  intro s rt ra rb
  refine ⟨decode_xWord rfl rfl, fun h0 hrun hadm => ?_⟩
  rw [exec_lswx_outside s h0 hrun]
  exact loadStringTo_completes s.xerByteCount_lt.le hadm

/-- Settles O41: the bytes that were loaded and the registers that were cleared are those the free choices of R160 name. -/
theorem loadStringsInterruptedByDsi : Obligations.LoadStringsInterruptedByDsi := by
  intro s rt ra rb nb k
  refine ⟨fun hrun hrej => ?_, fun h0 hrun hrej => ?_⟩
  · rw [exec_lswi s hrun]
    exact loadStringTo_interrupted (immediateCount_le_128 nb) hrej
  · rw [exec_lswx_outside s h0 hrun]
    exact loadStringTo_interrupted s.xerByteCount_lt.le hrej

/-! ## Store strings -/

theorem length_stringBytes (s : State) (rs : Reg) (n : Nat) : (stringBytes s rs n).length = n := by
  simp [stringBytes]

theorem getElem_stringBytes (s : State) (rs : Reg) (n : Nat) {j : Nat} (hj : j < (stringBytes s rs n).length) :
    (stringBytes s rs n)[j] = byteOf (s.x (runReg rs (j / 4))) (j % 4) := by
  simp [stringBytes]

section
variable {i : Instr} {s : State} {first : Reg} {ea : Word} {n : Nat}

theorem storeStringFrom_completes (hn : n ≤ 128) (hadm : Admitted s .store ea n) :
    ∃ t, storeStringFrom i s first ea n = .next t ∧ Stored s t ea (stringBytes s first n) ∧ (∀ r, t.x r = s.x r) ∧
      Completed s t := by
  have hall : s.storeString (fun _ => true) first ea n = s.storeBytes ea (stringBytes s first n) :=
    s.storeString_all first ea n
  refine ⟨State.advance _, ?_, stored_storeBytes s ea ?_, s.x_storeBytes _ _, completed_storeBytes s ea _⟩
  · rw [storeStringFrom, (s.firstRejected_eq_none .store ea n).mpr hadm, hall]
    rfl
  · rw [length_stringBytes]
    omega

theorem partlyStored_storeString (hn : n ≤ 128) :
    PartlyStored s (s.storeString (s.pickByte .store ea) first ea n) ea (stringBytes s first n) := by
  unfold PartlyStored
  simp only [getElem_stringBytes, length_stringBytes]
  exact ⟨⟨s.pickByte .store ea, fun k _ => State.pickByte_admits, fun k => s.byteAt_storeString _ first ea (by omega),
    s.mem_dirty_storeString _ first ea n⟩, fun a => s.byteAt_storeString_outside _ first ea n⟩

theorem storeStringFrom_interrupted (hn : n ≤ 128) {k : Nat} (hrej : RejectedAt s .store ea n k) :
    ∃ t, storeStringFrom i s first ea n = .next t ∧ Interrupted s t i (addrPlus ea k) .store ∧
      PartlyStored s t ea (stringBytes s first n) ∧ ∀ r, t.x r = s.x r := by
  obtain ⟨hk, hr, hb⟩ := hrej
  have hu := transfers_storeString s (s.pickByte .store ea) first ea n
  have hx := x_of_transfers hu
  have hpart : PartlyStored s _ ea (stringBytes s first n) := partlyStored_storeString hn
  refine ⟨State.raise (State.drawn _) _ _, ?_, interrupted_of_transfers hu i _ _, hpart, hx⟩
  rw [storeStringFrom, s.firstRejected_eq_some .store ea hk hr hb]
  rfl

end

/-- Settles O39. -/
theorem storeStringImmediate : Obligations.StoreStringImmediate := fun _ _ _ nb =>
  ⟨decode_xWord rfl rfl, storeStringFrom_completes (immediateCount_le_128 nb)⟩

/-- Settles O40. -/
theorem storeStringIndexed : Obligations.StoreStringIndexed := fun s _ _ _ =>
  ⟨decode_xWord rfl rfl, storeStringFrom_completes s.xerByteCount_lt.le⟩

/-- Settles O42: the bytes that were stored are those the free choice of R160 names. -/
theorem storeStringsInterruptedByDsi : Obligations.StoreStringsInterruptedByDsi := fun s _ _ _ nb _ =>
  ⟨storeStringFrom_interrupted (immediateCount_le_128 nb), storeStringFrom_interrupted s.xerByteCount_lt.le⟩

/-! ## A copy -/

/-- Settles O43: the load leaves the base of the store and the memory, and the run it filled is the block it read. -/
theorem loadStringThenStoreStringCopies : Obligations.LoadStringThenStoreStringCopies := by
  intro s rs ra rb nb hrun hal has _
  obtain ⟨t, ht, ⟨hbytes, -, hout⟩, ⟨hmem, -⟩, -, -, -, -, -, hlaunch⟩ :=
    (loadStringImmediate s rs rb nb).2 (fun k hk => (hrun k hk).2) hal
  have hbase : t.base ra = s.base ra := by rw [State.base, State.base, hout ra fun k hk => (hrun k hk).1]
  have hstore := (storeStringImmediate t rs ra nb).2
  rw [hbase] at hstore
  obtain ⟨u, hu, ⟨hst, hrest, -⟩, -, -⟩ := hstore fun k hk => (admits_of_launchKept hlaunch _ _).trans (has k hk)
  simp only [getElem_stringBytes, length_stringBytes] at hst hrest
  exact ⟨t, u, ht, hu, fun j hj => (hst j hj).trans (hbytes j hj), fun a ha => (hrest a ha).trans (hmem a)⟩

end Sys2Proof.Machine
end
